-- ==== Sys2Proof/Word.lean ====
section
/-! DEFINITION. The widths the spec gives its registers and fields (00_scope R7: all quantities are
unsigned). Nothing in this block is sign-extended. -/

namespace Sys2Proof

/-- A byte: 8 bits (R7). -/
abbrev Byte := BitVec 8

/-- `SEQ_BITS` (R5): sequence numbers are one byte. -/
abbrev seqBits : Nat := 8

/-- `LEN_BITS` (R5): `length` is two bytes. -/
abbrev lenBits : Nat := 16

/-- A sequence or acknowledgment number (R5, R26, R27, R98). -/
abbrev SeqNum := BitVec seqBits

/-- The value of the `length` field, `LENGTH` (R5, R99). -/
abbrev Length := BitVec lenBits

/-- A 16-bit register: `OFFS`, `MAX_PAYLOAD` (R22, R31). -/
abbrev Half := BitVec 16

/-- A 32-bit value: a host-visible register word, `LOC`, a checksum (R25, R34, R130). -/
abbrev Word := BitVec 32

/-- A 4-bit code: a wire error code, an attribute, a disposition number (R96, R97, R240). -/
abbrev Nibble := BitVec 4

end Sys2Proof
end

