-- ==== Sys2Proof/Config.lean ====
section
/-! DEFINITION. The implementation parameters of 00_scope R5 that the spec leaves OPEN. They are plain
data carried in State and written by no step, so that a statement about every state is a statement
about every configuration (log entry 3). -/

namespace Sys2Proof

/-- A checksum function that a platform plugs in (R130: "a total, deterministic function from a
finite byte list to a 32-bit unsigned value"; nothing else is assumed of it). It has no body: the
number only tells one such function from another. -/
opaque Config.otherChecksum : Nat → List Byte → Word

/-- The parameter `CHECKSUM` (R130, D1): the default of R135, or any other function. -/
inductive ChecksumAlg where
  /-- The default of R135. -/
  | crc32
  /-- Any other total function: `Config.otherChecksum k`. -/
  | other (k : Nat)
deriving DecidableEq, Repr

/-- The open parameters of R5. -/
structure Config where
  /-- `CHECKSUM` (R130). -/
  checksum : ChecksumAlg
  /-- `MAX_PAYLOAD_RESET`, the reset value of `MAX_PAYLOAD` (R31). -/
  maxPayloadReset : Half
  /-- `DGRAM_BUF_SIZE`, the capacity of `BUF` in bytes (R32). -/
  dgramBufSize : Nat
deriving DecidableEq, Repr

/-- R5: `DGRAM_BUF_SIZE` is a natural number 1..2^32-1 (`MAX_PAYLOAD_RESET` is 0..65535 by its type). -/
def Config.wf (c : Config) : Bool := 1 ≤ c.dgramBufSize && c.dgramBufSize < 2 ^ 32

/-- Configuration K0 of 95_test_vectors: the default CRC-32, `MAX_PAYLOAD_RESET` 4,
`DGRAM_BUF_SIZE` 16. DESIGN CHOICE as the configuration of `State.reset` (log entry 3); no statement
rests on its numbers. -/
def Config.k0 : Config := { checksum := .crc32, maxPayloadReset := 4, dgramBufSize := 16 }

end Sys2Proof
end

