-- ==== Sys2Proof/Syntax.lean ====
section
/-! DEFINITION. The names of the spec: phases, modes, inputs, the packet header, dispositions, and
`Instr`, one constructor per row of opcode_table.json. -/

namespace Sys2Proof

/-- The parse phase (R21). Its 2-bit code is `Phase.code`. -/
inductive Phase where
  | preamble
  | header
  | payload
  | footer
deriving DecidableEq, Repr

/-- The link mode `RESET_STATE` (R30, R257). Its bit is `ResetState.bit`. -/
inductive ResetState where
  /-- NONE, 0: data packets are accepted in sequence. -/
  | none
  /-- RESETTING, 1: data packets are dropped. -/
  | resetting
deriving DecidableEq, Repr

/-- The 8-byte packet header (R92) with `length` assembled (R99). -/
structure Header where
  /-- `flags`, `HDR[0]` (R95). -/
  flags : Byte
  /-- `packetCode`, `HDR[1]` (R96). -/
  code : Byte
  /-- `ackSeq`, `HDR[2]` (R98). -/
  ackSeq : SeqNum
  /-- `seq`, `HDR[3]` (R98). -/
  seq : SeqNum
  /-- `LENGTH`, from `HDR[4]` and `HDR[5]` (R99). -/
  length : Length
  /-- reserved byte 0, `HDR[6]` (R100). -/
  rsvd0 : Byte
  /-- reserved byte 1, `HDR[7]` (R100). -/
  rsvd1 : Byte
deriving DecidableEq, Repr

/-- The inputs, exactly these four (R9): one byte, a reset pulse, a register write, a register read. A
burst is no input of its own: it is several `rxByte` inputs (R227). Register numbers are natural numbers: R34 gives "8 and
above" a meaning and no upper bound. -/
inductive Input where
  | rxByte (b : Byte)
  | hardReset
  | csrWrite (n : Nat) (v : Word)
  | csrRead (n : Nat)
deriving DecidableEq, Repr

/-- The four errors that `raise Err` takes (R250). -/
inductive ErrCode where
  | checksum
  | oom
  | header
  | order
deriving DecidableEq, Repr

/-- The eleven dispositions of R240. Their 4-bit numbers are `Disp.code`. -/
inductive Disp where
  | acceptDatagram
  | acceptFragment
  | ackOnly
  | reset
  | resetAck
  | errChecksum
  | errOom
  | errHeader
  | errOrder
  | dropProto
  | dropResetting
deriving DecidableEq, Repr

/-- The record on the event port (R43). -/
structure Event where
  disp : Disp
  flags : Byte
  code : Byte
  ackSeq : SeqNum
  seq : SeqNum
  length : Length
  data : List Byte
deriving DecidableEq, Repr

/-- The eleven byte operations of R104, as names. -/
inductive ByteOp where
  | pre0Hit
  | pre0Skip
  | pre1Hit
  | pre1Retry
  | pre1Miss
  | hdr
  | hdrLast
  | pay
  | payLast
  | ftr
  | ftrLast
deriving DecidableEq, Repr

/-- The four header-completion outcomes of R157, as names. -/
inductive HdrEnd where
  | errHeader
  | errOom
  | toFooter
  | toPayload
deriving DecidableEq, Repr

/-- The twelve packet classes of R102, as names. -/
inductive PktClass where
  | badsum
  | reset
  | resetAck
  | resetAckStray
  | ctrlUnfin
  | attrRsvd
  | ack
  | ackUnfin
  | dataResetting
  | dataOrder
  | dataFrag
  | dataFin
deriving DecidableEq, Repr

/-- The operations: one constructor per row of opcode_table.json, in the table's order. A `PKT` row
carries the packet's header, a `BYTE` row its input byte where the row does not fix it, a `CSR` row
its register number and write data where the row does not fix them. -/
inductive Instr where
  -- format PKT
  | pktBadsum (h : Header)
  | pktReset (h : Header)
  | pktResetAck (h : Header)
  | pktResetAckStray (h : Header)
  | pktCtrlUnfin (h : Header)
  | pktAttrRsvd (h : Header)
  | pktAck (h : Header)
  | pktAckUnfin (h : Header)
  | pktDataResetting (h : Header)
  | pktDataOrder (h : Header)
  | pktDataFrag (h : Header)
  | pktDataFin (h : Header)
  -- format BYTE
  | rxPre0Hit
  | rxPre0Skip (b : Byte)
  | rxPre1Hit
  | rxPre1Retry
  | rxPre1Miss (b : Byte)
  | rxHdr (b : Byte)
  | rxHdrLast (b : Byte)
  | rxPay (b : Byte)
  | rxPayLast (b : Byte)
  | rxFtr (b : Byte)
  | rxFtrLast (b : Byte)
  -- format HDREND
  | hdrendErrHeader
  | hdrendErrOom
  | hdrendToFooter
  | hdrendToPayload
  -- format CSR
  | hardReset
  | cmdLinkReset (v : Word)
  | cmdRxAbort (v : Word)
  | cmdNop (v : Word)
  | csrWriteRxCfg (v : Word)
  | csrWriteIgnored (n : Nat) (v : Word)
  | csrRead (n : Nat)
  -- format PSEUDO
  | burst (bytes : List Byte)
deriving DecidableEq, Repr

/-- The five formats of opcode_table.json (R106). -/
inductive Format where
  | pkt
  | byte
  | hdrend
  | csr
  | pseudo
deriving DecidableEq, Repr

/-- The stimulus directives of R107 and the pseudo-directives of R108. -/
inductive Directive where
  | bytes (bs : List Byte)
  | pkt (flags code ack seq : Byte) (payload : List Byte)
  | pktr (flags code ack seq r0 r1 : Byte) (payload : List Byte)
  | hardReset
  | wr (n : Nat) (v : Word)
  | rd (n : Nat)
  | idle (n : Nat)
  | data (seq ack : Byte) (payload : List Byte)
  | frag (seq ack : Byte) (payload : List Byte)
  | ack (ack : Byte)
  | nak (err : Nibble) (ack : Byte)
  | reset (payload : List Byte)
  | resetAck (payload : List Byte)
  | linkReset
  | rxAbort
  | setMax (m : Word)
  | burst (bs : List Byte)
deriving DecidableEq, Repr

end Sys2Proof
end

