-- ==== Sys2Proof/Machine/Flags.lean ====
section
/-! DEFINITION. The flag-like fields. The block has no condition codes and no arithmetic flags (R33):
no operation computes a flag. What it has is the received `flags` byte, the two nibbles of
`packetCode`, and the mode bit `RESET_STATE`; their views and codes stand here. -/

namespace Sys2Proof

/-- `UNF` = `HDR[0][0]`, "unfinished-datagram fragment" (R95). -/
def Header.unf (h : Header) : Bool := h.flags.getLsbD 0

/-- `flags` bit 1, "reset": captured and reported, read by no rule (R95, C4). -/
def Header.resetFlag (h : Header) : Bool := h.flags.getLsbD 1

/-- `flags` bits 7..2, reserved: captured and reported, read by no rule (R95). -/
def Header.rsvdFlags (h : Header) : BitVec 6 := h.flags.extractLsb' 2 6

/-- `ATTR` = `HDR[1][7:4]` (R96). -/
def Header.attr (h : Header) : Nibble := h.code.extractLsb' 4 4

/-- `PERR` = `HDR[1][3:0]` (R96). -/
def Header.perr (h : Header) : Nibble := h.code.extractLsb' 0 4

/-- The attribute values of R96. -/
def attrNone : Nibble := 0
/-- Attribute RESET (R96). -/
def attrReset : Nibble := 1
/-- Attribute RESET_ACK (R96). -/
def attrResetAck : Nibble := 2

/-- The bit of `RESET_STATE`: 1 = RESETTING, 0 = NONE (R30). -/
def ResetState.bit : ResetState → BitVec 1
  | .none => 0
  | .resetting => 1

end Sys2Proof
end

