-- ==== Sys2Proof/Machine/Operands.lean ====
section
/-! DEFINITION. The operand forms: the wire constants (named, so that a correction is one line: R5,
U12), the header views of the holding register, byte order, and the numeric codes of phases, errors
and dispositions. -/

namespace Sys2Proof

/-- `PREAMBLE0` (R5, R91). -/
def preamble0 : Byte := 0x68
/-- `PREAMBLE1` (R5, R91). -/
def preamble1 : Byte := 0x43
/-- The marker, in wire order (R91). -/
def preamble : List Byte := [preamble0, preamble1]
/-- `PRE_LEN` (R5). -/
abbrev preLen : Nat := 2
/-- `HDR_LEN` (R5). -/
abbrev hdrLen : Nat := 8
/-- `FTR_LEN` (R5). -/
abbrev ftrLen : Nat := 4
/-- The window size (R5). No rule of this block compares with it: with a window of one the acceptance
test is equality with `EXPECTED_SEQ` (R112, R294); `Sys2Proof.eq_expected_iff_in_window` in Laws/Decode.lean
says that the two agree. -/
def windowSize : Nat := 1

/-! ### Field offsets in the header (R92) -/

/-- `flags` is header byte 0. -/
abbrev offFlags : Nat := 0
/-- `packetCode` is header byte 1. -/
abbrev offCode : Nat := 1
/-- `ackSeq` is header byte 2. -/
abbrev offAckSeq : Nat := 2
/-- `seq` is header byte 3. -/
abbrev offSeq : Nat := 3
/-- `length`, low byte, is header byte 4. -/
abbrev offLenLo : Nat := 4
/-- `length`, high byte, is header byte 5. -/
abbrev offLenHi : Nat := 5
/-- The first reserved byte is header byte 6. -/
abbrev offRsvd0 : Nat := 6
/-- The second reserved byte is header byte 7. -/
abbrev offRsvd1 : Nat := 7

/-- The wire error codes of R97 that this block writes: 0 NONE. -/
def wireNone : Nibble := 0
/-- 1 CHECKSUM (R97). -/
def wireChecksum : Nibble := 1
/-- 2 OOM (R97). -/
def wireOom : Nibble := 2
/-- 3 BUSY, never raised (R97, R248). -/
def wireBusy : Nibble := 3
/-- 4 HEADER (R97). -/
def wireHeader : Nibble := 4
/-- 5 ORDER (R97). -/
def wireOrder : Nibble := 5
/-- 6 APPLAYER, never raised (R97, R248). -/
def wireAppLayer : Nibble := 6
/-- 0xF TIMEOUT, never raised (R97, R248). -/
def wireTimeout : Nibble := 0xF

/-- The wire code that `raise Err(code)` writes to `LOCAL_ERR` (R241, R250). -/
def ErrCode.wire : ErrCode → Nibble
  | .checksum => wireChecksum
  | .oom => wireOom
  | .header => wireHeader
  | .order => wireOrder

/-- `disp(code)` of R250: 1 -> 8, 2 -> 9, 4 -> 10, 5 -> 11. -/
def ErrCode.disp : ErrCode → Disp
  | .checksum => .errChecksum
  | .oom => .errOom
  | .header => .errHeader
  | .order => .errOrder

/-- The 4-bit `disp` field (R240). Values 0, 6, 7, 14 and 15 are never emitted. -/
def Disp.code : Disp → Nibble
  | .acceptDatagram => 1
  | .acceptFragment => 2
  | .ackOnly => 3
  | .reset => 4
  | .resetAck => 5
  | .errChecksum => 8
  | .errOom => 9
  | .errHeader => 10
  | .errOrder => 11
  | .dropProto => 12
  | .dropResetting => 13

/-- The dispositions of kind accept (R240). -/
def Disp.isAccept : Disp → Bool
  | .acceptDatagram | .acceptFragment | .ackOnly | .reset | .resetAck => true
  | .errChecksum | .errOom | .errHeader | .errOrder | .dropProto | .dropResetting => false

/-- The wire code a disposition writes to `LOCAL_ERR` (the fourth column of R240). -/
def Disp.wire : Disp → Nibble
  | .errChecksum => wireChecksum
  | .errOom => wireOom
  | .errHeader => wireHeader
  | .errOrder => wireOrder
  | .acceptDatagram | .acceptFragment | .ackOnly | .reset | .resetAck | .dropProto
  | .dropResetting => wireNone

/-- The code of `PHASE` (R21). -/
def Phase.code : Phase → BitVec 2
  | .preamble => 0
  | .header => 1
  | .payload => 2
  | .footer => 3

/-- Two bytes as `LENGTH`, low byte first: `zext_16(b0) + 256 * zext_16(b1)` (R62, R99). -/
def le16 (b0 b1 : Byte) : Length := b0.setWidth lenBits + 256 * b1.setWidth lenBits

/-- Four bytes as a 32-bit number, low byte first (R63, R65, R132). -/
def le32 (b0 b1 b2 b3 : Byte) : Word :=
  b0.setWidth 32 + 2 ^ 8 * b1.setWidth 32 + 2 ^ 16 * b2.setWidth 32 + 2 ^ 24 * b3.setWidth 32

/-- Byte `k` of `LENGTH`, `k = 0` the low byte. -/
def halfByte (h : Length) (k : Nat) : Byte := h.extractLsb' (8 * k) 8

/-- Byte `k` of a 32-bit number, `k = 0` the low byte. -/
def wordByte (w : Word) (k : Nat) : Byte := w.extractLsb' (8 * k) 8

/-- The named views of `HDR[0..7]` (R92 to R100). -/
def headerOf (hdr : Vector Byte hdrLen) : Header :=
  { flags := hdr[offFlags], code := hdr[offCode], ackSeq := hdr[offAckSeq], seq := hdr[offSeq],
    length := le16 hdr[offLenLo] hdr[offLenHi], rsvd0 := hdr[offRsvd0], rsvd1 := hdr[offRsvd1] }

/-- The content of `HDR[0..7]` that holds this header. -/
def Header.toHdr (h : Header) : Vector Byte hdrLen :=
  (Vector.replicate hdrLen (0 : Byte))
    |>.set offFlags h.flags |>.set offCode h.code |>.set offAckSeq h.ackSeq |>.set offSeq h.seq
    |>.set offLenLo (halfByte h.length 0) |>.set offLenHi (halfByte h.length 1)
    |>.set offRsvd0 h.rsvd0 |>.set offRsvd1 h.rsvd1

/-- The eight header bytes in wire order (R92). -/
def Header.bytes (h : Header) : List Byte := h.toHdr.toList

/-- `rxsum` of R132: the received checksum, assembled little-endian from `FTR`. -/
def rxsum (ftr : Vector Byte ftrLen) : Word := le32 ftr[0] ftr[1] ftr[2] ftr[3]

/-- The four footer bytes of a checksum in wire order (R109). -/
def footerBytes (c : Word) : List Byte := [wordByte c 0, wordByte c 1, wordByte c 2, wordByte c 3]

/-- The coverage of the checksum (R131): the two constant preamble bytes, the header, the payload. -/
def covered (hdrBytes payload : List Byte) : List Byte :=
  preamble ++ hdrBytes ++ payload

end Sys2Proof
end

