-- ==== Sys2Proof/WellFormed.lean ====
section
/-! DEFINITION. Which operands a row of opcode_table.json admits: the row's own pattern bits and its
"constraint" on them. What the row asks of the block's STATE is `selects` in Decode.lean. -/

namespace Sys2Proof

/-- Attribute RESET or RESET_ACK (R102: "control" rows). -/
def Header.isControl (h : Header) : Bool := h.attr == attrReset || h.attr == attrResetAck

/-- A data packet: attribute NONE and a payload (R11, R102). -/
def Header.isData (h : Header) : Bool := h.attr == attrNone && h.length != 0

/-- The operands each row admits (R102, R104, R105; opcode_table.json). -/
def Instr.wf : Instr → Bool
  | .pktBadsum _ => true
  | .pktReset h => h.attr == attrReset && !h.unf
  | .pktResetAck h => h.attr == attrResetAck && !h.unf
  | .pktResetAckStray h => h.attr == attrResetAck && !h.unf
  | .pktCtrlUnfin h => h.isControl && h.unf
  | .pktAttrRsvd h => decide (3 ≤ h.attr.toNat)
  | .pktAck h => h.attr == attrNone && h.length == 0 && !h.unf
  | .pktAckUnfin h => h.attr == attrNone && h.length == 0 && h.unf
  | .pktDataResetting h => h.isData
  | .pktDataOrder h => h.isData
  | .pktDataFrag h => h.isData && h.unf
  | .pktDataFin h => h.isData && !h.unf
  | .rxPre0Hit => true
  | .rxPre0Skip b => b != preamble0
  | .rxPre1Hit => true
  | .rxPre1Retry => true
  | .rxPre1Miss b => b != preamble1 && b != preamble0
  | .rxHdr _ => true
  | .rxHdrLast _ => true
  | .rxPay _ => true
  | .rxPayLast _ => true
  | .rxFtr _ => true
  | .rxFtrLast _ => true
  | .hdrendErrHeader => true
  | .hdrendErrOom => true
  | .hdrendToFooter => true
  | .hdrendToPayload => true
  | .hardReset => true
  | .cmdLinkReset v => v.getLsbD 0
  | .cmdRxAbort v => !v.getLsbD 0 && v.getLsbD 1
  | .cmdNop v => !v.getLsbD 0 && !v.getLsbD 1
  | .csrWriteRxCfg _ => true
  | .csrWriteIgnored n _ => decide (2 ≤ n)
  | .csrRead _ => true
  | .burst _ => true

end Sys2Proof
end

