-- ==== Sys2Proof/Decode.lean ====
section
/-! DEFINITION. The operation map (30_encoding section 3): how an input byte, a completed header, a
verified packet and a host input each select exactly one row of opcode_table.json (`decode`), total
and rejecting by name; the encoder written from the same rows (`encode`); and the state condition of
each row (`selects`). The block is not a processor: what selects an operation is the input together
with the parser position and a few registers, collected in `Ctx`. -/

namespace Sys2Proof

/-! ### Byte operations -/

/-- R104, R150: the byte operation of `RXBYTE(b)`. The comparison with `LENGTH - 1` is over the natural
numbers, written without a subtraction (opcode_table.json: "OFFS + 1 < LENGTH"). `none` where R104 has
no row: a position outside the invariants of R46. -/
def byteOp (phase : Phase) (offs : Half) (length : Length) (b : Byte) : Option ByteOp :=
  match phase with
  | .preamble =>
    if offs.toNat = 0 then
      if b = preamble0 then some .pre0Hit else some .pre0Skip
    else if offs.toNat + 1 = preLen then
      if b = preamble1 then some .pre1Hit
      else if b = preamble0 then some .pre1Retry
      else some .pre1Miss
    else none
  | .header =>
    if offs.toNat + 1 < hdrLen then some .hdr
    else if offs.toNat + 1 = hdrLen then some .hdrLast
    else none
  | .payload =>
    if offs.toNat + 1 < length.toNat then some .pay
    else if offs.toNat + 1 = length.toNat then some .payLast
    else none
  | .footer =>
    if offs.toNat + 1 < ftrLen then some .ftr
    else if offs.toNat + 1 = ftrLen then some .ftrLast
    else none

/-- The table row of a byte operation on the byte `b`. -/
def ByteOp.instr (op : ByteOp) (b : Byte) : Instr :=
  match op with
  | .pre0Hit => .rxPre0Hit
  | .pre0Skip => .rxPre0Skip b
  | .pre1Hit => .rxPre1Hit
  | .pre1Retry => .rxPre1Retry
  | .pre1Miss => .rxPre1Miss b
  | .hdr => .rxHdr b
  | .hdrLast => .rxHdrLast b
  | .pay => .rxPay b
  | .payLast => .rxPayLast b
  | .ftr => .rxFtr b
  | .ftrLast => .rxFtrLast b

/-! ### Header completion -/

/-- R157: the outcome of header completion, tests in this order, over the natural numbers (R111). -/
def hdrEnd (length : Length) (maxPayload : Half) (loc : Word) (dgramBufSize : Nat) : HdrEnd :=
  if length.toNat > maxPayload.toNat then .errHeader
  else if loc.toNat + length.toNat > dgramBufSize then .errOom
  else if length.toNat = 0 then .toFooter
  else .toPayload

/-- The table row of a header-completion outcome. -/
def HdrEnd.instr : HdrEnd → Instr
  | .errHeader => .hdrendErrHeader
  | .errOom => .hdrendErrOom
  | .toFooter => .hdrendToFooter
  | .toPayload => .hdrendToPayload

/-! ### Packet classes -/

/-- R180, R102: the packet class at footer completion, tests in this order. -/
def pktClass (verified : Bool) (h : Header) (resetState : ResetState) (expectedSeq : SeqNum) : PktClass :=
  if !verified then .badsum
  else if h.attr = attrReset ∨ h.attr = attrResetAck then
    if h.unf then .ctrlUnfin
    else if h.attr = attrReset then .reset
    else if resetState = .resetting then .resetAck
    else .resetAckStray
  else if 3 ≤ h.attr.toNat then .attrRsvd
  else if h.length = 0 then
    if h.unf then .ackUnfin else .ack
  else if resetState = .resetting then .dataResetting
  else if h.seq ≠ expectedSeq then .dataOrder
  else if h.unf then .dataFrag
  else .dataFin

/-- The table row of a packet class for a packet with header `h`. -/
def PktClass.instr (c : PktClass) (h : Header) : Instr :=
  match c with
  | .badsum => .pktBadsum h
  | .reset => .pktReset h
  | .resetAck => .pktResetAck h
  | .resetAckStray => .pktResetAckStray h
  | .ctrlUnfin => .pktCtrlUnfin h
  | .attrRsvd => .pktAttrRsvd h
  | .ack => .pktAck h
  | .ackUnfin => .pktAckUnfin h
  | .dataResetting => .pktDataResetting h
  | .dataOrder => .pktDataOrder h
  | .dataFrag => .pktDataFrag h
  | .dataFin => .pktDataFin h

/-! ### Host operations -/

/-- R105: the operation of `CSR_WRITE(n, v)`. -/
def csrWriteInstr (n : Nat) (v : Word) : Instr :=
  if n = 0 then
    if v.getLsbD 0 then .cmdLinkReset v
    else if v.getLsbD 1 then .cmdRxAbort v
    else .cmdNop v
  else if n = 1 then .csrWriteRxCfg v
  else .csrWriteIgnored n v

/-! ### The decoder -/

/-- The part of the state that selects an operation (R104, R157, R180). -/
structure Ctx where
  phase : Phase
  offs : Half
  /-- `LENGTH`, of the header held in `HDR` -/
  length : Length
  maxPayload : Half
  loc : Word
  dgramBufSize : Nat
  /-- `VERIFY` of R133 -/
  verified : Bool
  resetState : ResetState
  expectedSeq : SeqNum
deriving DecidableEq, Repr

/-- What is decoded: an input (formats BYTE and CSR of R106), the completion of a header (format
HDREND), a packet's preamble and header bytes (format PKT, 80 bits), or the software call of R227 with
its bytes (format PSEUDO), which is no input. -/
inductive Code where
  | input (i : Input)
  | headerEnd
  | packet (bytes : List Byte)
  | burst (bytes : List Byte)
deriving DecidableEq, Repr

/-- Why a code is no operation. -/
inductive Reject where
  /-- no row of R104 for this position: outside the invariants of R46 -/
  | noOperation
  /-- the two bytes are not the marker 0x68 0x43 (R91) -/
  | badPreamble
  /-- not the ten bytes of a preamble and a header (R92, R106) -/
  | badLength
deriving DecidableEq, Repr

/-- The header of an 80-bit packet word: the marker, then the header, in wire order (R92, R106). Total
on any bytes. -/
def headerOfPacket (bytes : List Byte) : Except Reject Header :=
  if h : (bytes.drop preLen).length = hdrLen then
    if bytes.take preLen = preamble then .ok (headerOf ⟨(bytes.drop preLen).toArray, h⟩)
    else .error .badPreamble
  else .error .badLength

/-- The operation map, R102 to R106. -/
def decode (c : Ctx) : Code → Except Reject Instr
  | .input (.rxByte b) =>
    match byteOp c.phase c.offs c.length b with
    | some op => .ok (op.instr b)
    | none => .error .noOperation
  | .input .hardReset => .ok .hardReset
  | .input (.csrWrite n v) => .ok (csrWriteInstr n v)
  | .input (.csrRead n) => .ok (.csrRead n)
  | .headerEnd => .ok (hdrEnd c.length c.maxPayload c.loc c.dgramBufSize).instr
  | .packet bytes =>
    match headerOfPacket bytes with
    | .ok h => .ok ((pktClass c.verified h c.resetState c.expectedSeq).instr h)
    | .error r => .error r
  | .burst bytes => .ok (.burst bytes)

/-! ### The encoder -/

/-- The 80 bits of a `PKT` row: preamble and header, in wire order (R106, R109). -/
def packetWord (h : Header) : List Byte := preamble ++ h.bytes

/-- The code of an operation, written from the rows of opcode_table.json. -/
def encode : Instr → Code
  | .pktBadsum h => .packet (packetWord h)
  | .pktReset h => .packet (packetWord h)
  | .pktResetAck h => .packet (packetWord h)
  | .pktResetAckStray h => .packet (packetWord h)
  | .pktCtrlUnfin h => .packet (packetWord h)
  | .pktAttrRsvd h => .packet (packetWord h)
  | .pktAck h => .packet (packetWord h)
  | .pktAckUnfin h => .packet (packetWord h)
  | .pktDataResetting h => .packet (packetWord h)
  | .pktDataOrder h => .packet (packetWord h)
  | .pktDataFrag h => .packet (packetWord h)
  | .pktDataFin h => .packet (packetWord h)
  | .rxPre0Hit => .input (.rxByte preamble0)
  | .rxPre0Skip b => .input (.rxByte b)
  | .rxPre1Hit => .input (.rxByte preamble1)
  | .rxPre1Retry => .input (.rxByte preamble0)
  | .rxPre1Miss b => .input (.rxByte b)
  | .rxHdr b => .input (.rxByte b)
  | .rxHdrLast b => .input (.rxByte b)
  | .rxPay b => .input (.rxByte b)
  | .rxPayLast b => .input (.rxByte b)
  | .rxFtr b => .input (.rxByte b)
  | .rxFtrLast b => .input (.rxByte b)
  | .hdrendErrHeader => .headerEnd
  | .hdrendErrOom => .headerEnd
  | .hdrendToFooter => .headerEnd
  | .hdrendToPayload => .headerEnd
  | .hardReset => .input .hardReset
  | .cmdLinkReset v => .input (.csrWrite 0 v)
  | .cmdRxAbort v => .input (.csrWrite 0 v)
  | .cmdNop v => .input (.csrWrite 0 v)
  | .csrWriteRxCfg v => .input (.csrWrite 1 v)
  | .csrWriteIgnored n v => .input (.csrWrite n v)
  | .csrRead n => .input (.csrRead n)
  | .burst bytes => .burst bytes

/-- The state condition of each row: the columns `PHASE` and `OFFS` of R104, "state condition" of
R102, the conditions of R157 (opcode_table.json: "phase", "offs", "state", and the "constraint"s that
name state). -/
def selects (c : Ctx) : Instr → Bool
  | .pktBadsum _ => !c.verified
  | .pktReset _ => c.verified
  | .pktResetAck _ => c.verified && c.resetState == .resetting
  | .pktResetAckStray _ => c.verified && c.resetState == .none
  | .pktCtrlUnfin _ => c.verified
  | .pktAttrRsvd _ => c.verified
  | .pktAck _ => c.verified
  | .pktAckUnfin _ => c.verified
  | .pktDataResetting _ => c.verified && c.resetState == .resetting
  | .pktDataOrder h => c.verified && c.resetState == .none && h.seq != c.expectedSeq
  | .pktDataFrag h => c.verified && c.resetState == .none && h.seq == c.expectedSeq
  | .pktDataFin h => c.verified && c.resetState == .none && h.seq == c.expectedSeq
  | .rxPre0Hit => c.phase == .preamble && c.offs == 0
  | .rxPre0Skip _ => c.phase == .preamble && c.offs == 0
  | .rxPre1Hit => c.phase == .preamble && c.offs.toNat + 1 == preLen
  | .rxPre1Retry => c.phase == .preamble && c.offs.toNat + 1 == preLen
  | .rxPre1Miss _ => c.phase == .preamble && c.offs.toNat + 1 == preLen
  | .rxHdr _ => c.phase == .header && decide (c.offs.toNat + 1 < hdrLen)
  | .rxHdrLast _ => c.phase == .header && c.offs.toNat + 1 == hdrLen
  | .rxPay _ => c.phase == .payload && decide (c.offs.toNat + 1 < c.length.toNat)
  | .rxPayLast _ => c.phase == .payload && decide (c.offs.toNat + 1 = c.length.toNat)
  | .rxFtr _ => c.phase == .footer && decide (c.offs.toNat + 1 < ftrLen)
  | .rxFtrLast _ => c.phase == .footer && c.offs.toNat + 1 == ftrLen
  | .hdrendErrHeader => decide (c.maxPayload.toNat < c.length.toNat)
  | .hdrendErrOom =>
    decide (c.length.toNat ≤ c.maxPayload.toNat) && decide (c.dgramBufSize < c.loc.toNat + c.length.toNat)
  | .hdrendToFooter =>
    decide (c.length.toNat ≤ c.maxPayload.toNat) && decide (c.loc.toNat + c.length.toNat ≤ c.dgramBufSize)
      && c.length == 0
  | .hdrendToPayload =>
    decide (c.length.toNat ≤ c.maxPayload.toNat) && decide (c.loc.toNat + c.length.toNat ≤ c.dgramBufSize)
      && c.length != 0
  | .hardReset => true
  | .cmdLinkReset _ => true
  | .cmdRxAbort _ => true
  | .cmdNop _ => true
  | .csrWriteRxCfg _ => true
  | .csrWriteIgnored _ _ => true
  | .csrRead _ => true
  | .burst _ => true

/-- The format of a row (opcode_table.json, "format"). -/
def Instr.format : Instr → Format
  | .pktBadsum _ | .pktReset _ | .pktResetAck _ | .pktResetAckStray _ | .pktCtrlUnfin _
  | .pktAttrRsvd _ | .pktAck _ | .pktAckUnfin _ | .pktDataResetting _ | .pktDataOrder _
  | .pktDataFrag _ | .pktDataFin _ => .pkt
  | .rxPre0Hit | .rxPre0Skip _ | .rxPre1Hit | .rxPre1Retry | .rxPre1Miss _ | .rxHdr _
  | .rxHdrLast _ | .rxPay _ | .rxPayLast _ | .rxFtr _ | .rxFtrLast _ => .byte
  | .hdrendErrHeader | .hdrendErrOom | .hdrendToFooter | .hdrendToPayload => .hdrend
  | .hardReset | .cmdLinkReset _ | .cmdRxAbort _ | .cmdNop _ | .csrWriteRxCfg _
  | .csrWriteIgnored _ _ | .csrRead _ => .csr
  | .burst _ => .pseudo

/-- The format of a code. -/
def Code.format : Code → Format
  | .input (.rxByte _) => .byte
  | .input .hardReset => .csr
  | .input (.csrWrite _ _) => .csr
  | .input (.csrRead _) => .csr
  | .headerEnd => .hdrend
  | .packet _ => .pkt
  | .burst _ => .pseudo

/-! ### The host's table words -/

/-- The bytes of a word numbered as the table numbers it: byte 0 is bits 7..0. -/
def wordBytes (n w : Nat) : List Byte := (List.range n).map fun k => BitVec.ofNat 8 (w >>> (8 * k))

/-- The marker position at which a table byte is read: a `BYTE` row's word gives no phase and no
offset; the row with the larger mask wins (R106), so 0x43 is read as the second marker byte and every
other byte as the first (log entry 11). -/
def tableOffs (b : Byte) : Half := if b = preamble1 then 1 else 0

/-- The selecting state at which a table word is read: the reset state's, with `VERIFY` true
(log entry 11). -/
def tableCtx (offs : Half) : Ctx :=
  { phase := .preamble, offs := offs, length := 0, maxPayload := Config.k0.maxPayloadReset, loc := 0,
    dgramBufSize := Config.k0.dgramBufSize, verified := true, resetState := .resetting, expectedSeq := 0 }

/-- The instruction the decoder reads from a word of opcode_table.json: 8 bits are a received byte, 32
bits the data of a write to `RX_CMD`, 80 bits a packet's preamble and header (log entry 11). -/
def decodeTableWord (nbits w : Nat) : Option Instr :=
  if nbits = 8 then
    (decode (tableCtx (tableOffs (BitVec.ofNat 8 w))) (.input (.rxByte (BitVec.ofNat 8 w)))).toOption
  else if nbits = 32 then
    (decode (tableCtx 0) (.input (.csrWrite 0 (BitVec.ofNat 32 w)))).toOption
  else if nbits = 8 * (preLen + hdrLen) then
    (decode (tableCtx 0) (.packet (wordBytes (preLen + hdrLen) w))).toOption
  else none

end Sys2Proof
end

