-- ==== Sys2Proof/Machine/State.lean ====
section
/-! DEFINITION. The state (10_state R20: "the complete architectural state of one RX framer"), the
reasons a step can stop, and the state after reset. -/

namespace Sys2Proof.Machine

/-- Why a step stops. The spec has no such event (R249: "No error stops the block"): each of these is
raised only in a state outside the invariants of R46 and R74, which no run from reset reaches. Stopping
there is safe: no claim about a next state follows. -/
inductive Fault where
  /-- `MemRead` or `MemWrite` at or beyond `DGRAM_BUF_SIZE` (R60, R67). Raised by the payload store and
  by the footer-completion reads. Safe. -/
  | bufOutOfRange
  /-- `MemRead` of a byte of `BUF` that nothing has written since reset (R74: "if its reads can reach an
  unwritten cell, the model has a bug"). Raised by the footer-completion reads. Safe. -/
  | bufUnwritten
  /-- `HDR[i]` with `i >= HDR_LEN` or `FTR[i]` with `i >= FTR_LEN` (R23, R24). Raised by `RX.HDR` and `RX.FTR`. Safe. -/
  | holdingIndex
deriving DecidableEq, Repr

/-- Why a step has no meaning. -/
inductive Refusal where
  /-- An operation whose arm has no meaning yet, by its mnemonic. No arm uses it. Safe. -/
  | notModelled (mnemonic : String)
  /-- A byte at a position for which R104 selects no operation: outside the invariants of R46. Raised by
  `step` and by `BURST`. Safe. -/
  | noOperation
deriving DecidableEq, Repr

/-- The state. -/
structure State where
  /-- The parameters of R5: fixed, written by no step (log entry 3). -/
  cfg : Config
  /-- `PHASE` (R21). -/
  phase : Phase
  /-- `OFFS` (R22). -/
  offs : Half
  /-- `HDR[0..7]` (R23). -/
  hdr : Vector Byte hdrLen
  /-- `FTR[0..3]` (R24). -/
  ftr : Vector Byte ftrLen
  /-- `LOC` (R25). -/
  loc : Word
  /-- `EXPECTED_SEQ` (R26). -/
  expectedSeq : SeqNum
  /-- `RX_ACK_SEQ` (R27). -/
  rxAckSeq : SeqNum
  /-- `PEER_ERR` (R28). -/
  peerErr : Nibble
  /-- `LOCAL_ERR` (R29). -/
  localErr : Nibble
  /-- `RESET_STATE` (R30). -/
  resetState : ResetState
  /-- `MAX_PAYLOAD` (R31). -/
  maxPayload : Half
  /-- `BUF` (R32): the written bytes, addresses strictly rising. An unlisted address has no value
  (R282, log entry 5). -/
  buf : List Host.Cell
  /-- The model's own: the inputs the environment has still to present, oldest first (R9, R70; log
  entry 1). -/
  inputs : List Input
  /-- The model's own: the event port, what the last step emitted, oldest first (R43; log entry 2). -/
  events : List Event
  /-- The model's own: the value a `CSR_READ` step returned (R9, R224; log entry 2). -/
  readData : Option Word
deriving DecidableEq, Repr

/-- The state after `HARD_RESET` under a configuration (R280), nothing pending on the ports. -/
def State.resetWith (cfg : Config) : State :=
  { cfg := cfg
    phase := .preamble
    offs := 0
    hdr := Vector.replicate hdrLen 0
    ftr := Vector.replicate ftrLen 0
    loc := 0
    expectedSeq := 0
    rxAckSeq := 0
    peerErr := 0
    localErr := 0
    resetState := .resetting
    maxPayload := cfg.maxPayloadReset
    buf := []
    inputs := []
    events := []
    readData := none }

/-- The machine right after reset, under configuration K0 of 95_test_vectors (log entry 3). -/
def State.reset : State := State.resetWith Config.k0

end Sys2Proof.Machine
end

