-- ==== Sys2Proof/Machine/Ops.lean ====
section
/-! DEFINITION. The named operations over memory and registers (00_scope R8), the one error entry
`raise Err` (60_exceptions R250) and its siblings. There is no return operation beside it: "Nothing is
saved and nothing needs restoring" (R250), "There is no return operation" (R252). -/

namespace Sys2Proof.Machine

/-- The three outcomes of this machine. -/
abbrev Result := Host.Outcome State Fault Refusal

/-- Continue with a value, or stop with the fault. -/
def whenOk {α : Type} (r : Except Fault α) (k : α → Result) : Result :=
  match r with
  | .ok a => k a
  | .error f => .fault f

/-! ### The reassembly buffer -/

/-- The byte listed at an address; an unlisted address has no value (R282). -/
def Memory.read (m : List Host.Cell) (a : Nat) : Option Byte :=
  match m with
  | [] => none
  | (k, b) :: rest => if k = a then some b else Memory.read rest a

/-- Store one byte, keeping the addresses strictly rising. -/
def Memory.write (m : List Host.Cell) (a : Nat) (b : Byte) : List Host.Cell :=
  match m with
  | [] => [(a, b)]
  | (k, c) :: rest =>
    if a < k then (a, b) :: (k, c) :: rest
    else if a = k then (a, b) :: rest
    else (k, c) :: Memory.write rest a b

/-- The canonical form: addresses strictly rising. No entry can equal what an unlisted address reads
as, since an unlisted address has no value. -/
abbrev Memory.wf (m : List Host.Cell) : Prop := m.Pairwise fun x y => x.1 < y.1

/-- `BUF[a]` (R60: addresses 0 to `DGRAM_BUF_SIZE`-1). -/
def readBuf (s : State) (a : Nat) : Except Fault Byte :=
  if a < s.cfg.dgramBufSize then
    match Memory.read s.buf a with
    | some b => .ok b
    | none => .error .bufUnwritten
  else .error .bufOutOfRange

/-- `MemRead(a, n)` (R8): the byte list `[BUF[a], ..., BUF[a+n-1]]`; `n` may be 0. -/
def memRead (s : State) (a : Nat) : Nat → Except Fault (List Byte)
  | 0 => .ok []
  | n + 1 =>
    match readBuf s a with
    | .error f => .error f
    | .ok b =>
      match memRead s (a + 1) n with
      | .error f => .error f
      | .ok bs => .ok (b :: bs)

/-- `MemWrite(a, 1, b)` (R8, R67): only one-byte stores exist. -/
def memWrite (s : State) (a : Nat) (b : Byte) : Except Fault State :=
  if a < s.cfg.dgramBufSize then .ok { s with buf := Memory.write s.buf a b }
  else .error .bufOutOfRange

/-! ### Registers -/

/-- `(PHASE, OFFS) <- (p, o)` (R8). -/
def State.setPos (s : State) (p : Phase) (o : Half) : State := { s with phase := p, offs := o }

/-- `OFFS <- o`. -/
def State.setOffs (s : State) (o : Half) : State := { s with offs := o }

/-- `HDR[i] <- b` (R23). -/
def State.setHdr (s : State) (i : Nat) (b : Byte) : Except Fault State :=
  if h : i < hdrLen then .ok { s with hdr := s.hdr.set i b h } else .error .holdingIndex

/-- `FTR[i] <- b` (R24). -/
def State.setFtr (s : State) (i : Nat) (b : Byte) : Except Fault State :=
  if h : i < ftrLen then .ok { s with ftr := s.ftr.set i b h } else .error .holdingIndex

/-- The header held in `HDR` (R92). -/
def State.header (s : State) : Header := headerOf s.hdr

/-- What selects an operation in this state. `VERIFY` is evaluated only at footer completion
(R133), so it is an argument. -/
def State.ctx (s : State) (verified : Bool) : Ctx :=
  { phase := s.phase, offs := s.offs, length := s.header.length, maxPayload := s.maxPayload,
    loc := s.loc, dgramBufSize := s.cfg.dgramBufSize, verified := verified,
    resetState := s.resetState, expectedSeq := s.expectedSeq }

/-- The value of register `n` (R224, R34 to R39). -/
def readReg (s : State) (n : Nat) : Word :=
  match n with
  | 1 => s.maxPayload.setWidth 32
  | 2 => s.phase.code.setWidth 32 + 4 * s.resetState.bit.setWidth 32 + 65536 * s.offs.setWidth 32
  | 3 =>
    s.expectedSeq.setWidth 32 + 2 ^ 8 * s.rxAckSeq.setWidth 32 + 2 ^ 16 * s.peerErr.setWidth 32
      + 2 ^ 20 * s.localErr.setWidth 32
  | 4 => s.loc
  | 5 => le32 s.hdr[0] s.hdr[1] s.hdr[2] s.hdr[3]
  | 6 => le32 s.hdr[4] s.hdr[5] s.hdr[6] s.hdr[7]
  | 7 => le32 s.ftr[0] s.ftr[1] s.ftr[2] s.ftr[3]
  | _ => 0

/-- The level outputs to the transmit side (R42): plain copies of registers. -/
structure Outputs where
  expectedSeq : SeqNum
  rxAckSeq : SeqNum
  peerErr : Nibble
  localErr : Nibble
  resetting : BitVec 1
deriving DecidableEq, Repr

/-- The level outputs in a state (R42). -/
def State.outputs (s : State) : Outputs :=
  { expectedSeq := s.expectedSeq, rxAckSeq := s.rxAckSeq, peerErr := s.peerErr,
    localErr := s.localErr, resetting := s.resetState.bit }

/-! ### Events, errors and drops -/

/-- `EV(disp, data)` (R43) for the packet whose header is `h`. -/
def eventOf (d : Disp) (h : Header) (data : List Byte) : Event :=
  { disp := d, flags := h.flags, code := h.code, ackSeq := h.ackSeq, seq := h.seq,
    length := h.length, data := data }

/-- `emit EV(disp, data)` (R8, R43): put the record on the event port. -/
def emit (d : Disp) (h : Header) (data : List Byte) (s : State) : State :=
  { s with events := s.events ++ [eventOf d h data] }

/-- `raise Err(code)` (R250), the block's trap entry, for the packet whose header is `h`:
`LOCAL_ERR <- code`, the parser back in `(PREAMBLE, 0)`, one event with no data. -/
def raiseErr (e : ErrCode) (h : Header) (s : State) : State :=
  emit e.disp h [] { s with localErr := e.wire, phase := .preamble, offs := 0 }

/-- A drop (R246, R247): `LOCAL_ERR <- 0` and one event with no data. -/
def dropPacket (d : Disp) (h : Header) (s : State) : State :=
  emit d h [] { s with localErr := wireNone }

/-- `AcceptData()` (R194). -/
def acceptData (h : Header) (s : State) : State :=
  { s with expectedSeq := h.seq + 1, rxAckSeq := h.ackSeq, peerErr := h.perr, localErr := wireNone }

/-- The register updates common to an accepted RESET and RESET_ACK (R183, R184). -/
def acceptControl (h : Header) (s : State) : State :=
  { s with
    expectedSeq := 0, rxAckSeq := 0, loc := 0, peerErr := h.perr, localErr := wireNone,
    resetState := .none }

/-- The local entry into the link reset (R221): everything but `HDR`, `FTR`, `MAX_PAYLOAD` and `BUF`. -/
def linkReset (s : State) : State :=
  { s with
    phase := .preamble, offs := 0, loc := 0, expectedSeq := 0, rxAckSeq := 0, peerErr := 0,
    localErr := 0, resetState := .resetting }

/-- `LOC + n` as the 32-bit register holds it (R25, R111: over the naturals; no wrap under R46). -/
def locPlus (s : State) (n : Length) : Word := BitVec.ofNat 32 (s.loc.toNat + n.toNat)

/-! ### Taking an input -/

/-- The next input and the state in which it is performed: the input is consumed (R60: "consumed
once, in order"), and the pulses of the step before are gone (R43). -/
def fetch (s : State) : Option (Input × State) :=
  match s.inputs with
  | [] => none
  | i :: rest => some (i, { s with inputs := rest, events := [], readData := none })

/-- No input arrives: the block loses nothing and emits nothing (R261, R283). -/
def idle (s : State) : State := { s with events := [], readData := none }

end Sys2Proof.Machine
end

