-- ==== Sys2Proof/Machine/HeaderEnd.lean ====
section
/-! DEFINITION. The four header-completion outcomes (41_byte_ops R158 to R161) and the choice among
them (R157). -/

namespace Sys2Proof.Machine

/-- `HDREND.ERR_HEADER` (R158): declared length too large. -/
def execHdrendErrHeader (s : State) : Result := .next (raiseErr .header s.header s)

/-- `HDREND.ERR_OOM` (R159): the payload would not fit the reassembly buffer. -/
def execHdrendErrOom (s : State) : Result := .next (raiseErr .oom s.header s)

/-- `HDREND.TO_FOOTER` (R160): a zero-length packet has no PAYLOAD steps. -/
def execHdrendToFooter (s : State) : Result := .next (s.setPos .footer 0)

/-- `HDREND.TO_PAYLOAD` (R161): the payload follows. -/
def execHdrendToPayload (s : State) : Result := .next (s.setPos .payload 0)

/-- Perform a header-completion outcome. -/
def hdrEndStep (e : HdrEnd) (s : State) : Result :=
  match e with
  | .errHeader => execHdrendErrHeader s
  | .errOom => execHdrendErrOom s
  | .toFooter => execHdrendToFooter s
  | .toPayload => execHdrendToPayload s

/-- Header completion, the tests of R157, after `HDR[7]` is stored. -/
def headerComplete (s : State) : Result :=
  hdrEndStep (hdrEnd s.header.length s.maxPayload s.loc s.cfg.dgramBufSize) s

end Sys2Proof.Machine
end

