-- ==== Sys2Proof/Machine/Checksum.lean ====
section
/-! DEFINITION. The checksum codec, verify side (40_checksum_codec), and the packet encoder of
30_encoding R109. -/

namespace Sys2Proof.Machine

/-- One bit of the CRC-32 loop (R135). -/
def crcBit (crc : Word) : Word :=
  if crc.getLsbD 0 then (crc >>> 1) ^^^ 0xEDB88320#32 else crc >>> 1

/-- `repeat n times` of the CRC-32 loop (R135). -/
def crcBits (crc : Word) : Nat → Word
  | 0 => crc
  | n + 1 => crcBits (crcBit crc) n

/-- One byte of the CRC-32 loop (R135). -/
def crcByte (crc : Word) (b : Byte) : Word := crcBits (crc ^^^ b.setWidth 32) 8

/-- The default `CHECKSUM`, CRC-32 (R135). -/
def crc32 (bs : List Byte) : Word := bs.foldl crcByte 0xFFFFFFFF#32 ^^^ 0xFFFFFFFF#32

/-- `CHECKSUM` (R130). -/
def checksum (alg : ChecksumAlg) (bs : List Byte) : Word :=
  match alg with
  | .crc32 => crc32 bs
  | .other k => Config.otherChecksum k bs

/-- `VERIFY` (R133), over the coverage of R131. It reads `HDR`, `FTR`, `LOC` and
`BUF[LOC..LOC+LENGTH)`. -/
def verify (s : State) : Except Fault Bool :=
  match memRead s s.loc.toNat s.header.length.toNat with
  | .error f => .error f
  | .ok payload => .ok (rxsum s.ftr == checksum s.cfg.checksum (covered s.hdr.toList payload))

/-- The header that `encode` of R109 gives a packet with this payload. -/
def packetHeader (flags code ackSeq seq rsvd0 rsvd1 : Byte) (payload : List Byte) : Header :=
  { flags := flags, code := code, ackSeq := ackSeq, seq := seq,
    length := BitVec.ofNat lenBits payload.length, rsvd0 := rsvd0, rsvd1 := rsvd1 }

/-- `encode(flags, code, ackSeq, seq, payload, rsvd0, rsvd1)` (R109): what a conforming peer
transmits. -/
def encodePacket (alg : ChecksumAlg) (flags code ackSeq seq : Byte) (payload : List Byte)
    (rsvd0 rsvd1 : Byte) : List Byte :=
  let h := packetHeader flags code ackSeq seq rsvd0 rsvd1 payload
  packetWord h ++ payload ++ footerBytes (checksum alg (covered h.bytes payload))

end Sys2Proof.Machine
end

