-- ==== Sys2Proof/Machine/Packet.lean ====
section
/-! DEFINITION. The packet classes (42_packet_disposition R181 to R193) and `FooterComplete` (R180).
The operand `h` is the header the class was read from; `FooterComplete` passes the content of `HDR`. -/

namespace Sys2Proof.Machine

/-- `PKT.BADSUM` (R181). -/
def execPktBadsum (h : Header) (s : State) : Result := .next (raiseErr .checksum h s)

/-- `PKT.RESET` (R183): the event carries the peer's configuration payload, then the registers are
set. -/
def execPktReset (h : Header) (s : State) : Result :=
  whenOk (memRead s s.loc.toNat h.length.toNat) fun data => .next (acceptControl h (emit .reset h data s))

/-- `PKT.RESET_ACK` (R184). -/
def execPktResetAck (h : Header) (s : State) : Result :=
  whenOk (memRead s s.loc.toNat h.length.toNat) fun data => .next (acceptControl h (emit .resetAck h data s))

/-- `PKT.RESET_ACK.STRAY` (R185). -/
def execPktResetAckStray (h : Header) (s : State) : Result := .next (dropPacket .dropProto h s)

/-- `PKT.CTRL.UNFIN` (R186). -/
def execPktCtrlUnfin (h : Header) (s : State) : Result := .next (dropPacket .dropProto h s)

/-- `PKT.ATTR.RSVD` (R187). -/
def execPktAttrRsvd (h : Header) (s : State) : Result := .next (dropPacket .dropProto h s)

/-- `PKT.ACK` (R188): the acknowledgment and the peer's error code are taken; `SEQ` is ignored. -/
def execPktAck (h : Header) (s : State) : Result :=
  .next (emit .ackOnly h [] { s with rxAckSeq := h.ackSeq, peerErr := h.perr, localErr := wireNone })

/-- `PKT.ACK.UNFIN` (R189). -/
def execPktAckUnfin (h : Header) (s : State) : Result := .next (dropPacket .dropProto h s)

/-- `PKT.DATA.RESETTING` (R190). -/
def execPktDataResetting (h : Header) (s : State) : Result := .next (dropPacket .dropResetting h s)

/-- `PKT.DATA.ORDER` (R191). -/
def execPktDataOrder (h : Header) (s : State) : Result := .next (raiseErr .order h s)

/-- `PKT.DATA.FRAG` (R192): accepted, `LOC` moves past the fragment, nothing is delivered. -/
def execPktDataFrag (h : Header) (s : State) : Result :=
  .next (emit .acceptFragment h [] { acceptData h s with loc := locPlus s h.length })

/-- `PKT.DATA.FIN` (R193): the whole datagram is delivered (with `LOC` as it was), then `LOC` is 0. -/
def execPktDataFin (h : Header) (s : State) : Result :=
  whenOk (memRead s 0 (s.loc.toNat + h.length.toNat)) fun data =>
    .next { emit .acceptDatagram h data (acceptData h s) with loc := 0 }

/-- Perform the rule of a packet class. -/
def pktStep (c : PktClass) (h : Header) (s : State) : Result :=
  match c with
  | .badsum => execPktBadsum h s
  | .reset => execPktReset h s
  | .resetAck => execPktResetAck h s
  | .resetAckStray => execPktResetAckStray h s
  | .ctrlUnfin => execPktCtrlUnfin h s
  | .attrRsvd => execPktAttrRsvd h s
  | .ack => execPktAck h s
  | .ackUnfin => execPktAckUnfin h s
  | .dataResetting => execPktDataResetting h s
  | .dataOrder => execPktDataOrder h s
  | .dataFrag => execPktDataFrag h s
  | .dataFin => execPktDataFin h s

/-- The verdict of R180 in a state whose parser is already back in `(PREAMBLE, 0)`: `VERIFY`, the
class, the class rule. -/
def judge (s : State) : Result :=
  whenOk (verify s) fun v => pktStep (pktClass v s.header s.resetState s.expectedSeq) s.header s

/-- `FooterComplete` (R180): `(PHASE, OFFS) <- (PREAMBLE, 0)` always, then the verdict. -/
def footerComplete (s : State) : Result := judge (s.setPos .preamble 0)

end Sys2Proof.Machine
end

