-- ==== Sys2Proof/Machine/ByteOps.lean ====
section
/-! DEFINITION. The eleven byte operations (41_byte_ops R151 to R157, R162 to R165), their dispatch
(R150), and the burst that repeats it (43_host_ops R227). -/

namespace Sys2Proof.Machine

/-- `RX.PRE0.HIT` (R151). -/
def execRxPre0Hit (s : State) : Result := .next (s.setOffs 1)

/-- `RX.PRE0.SKIP` (R152): the byte is discarded, no state change. -/
def execRxPre0Skip (_b : Byte) (s : State) : Result := .next s

/-- `RX.PRE1.HIT` (R153): a packet attempt begins; `HDR` is not cleared. -/
def execRxPre1Hit (s : State) : Result := .next (s.setPos .header 0)

/-- `RX.PRE1.RETRY` (R154): the older 0x68 is discarded, this one is kept. -/
def execRxPre1Retry (s : State) : Result := .next (s.setOffs 1)

/-- `RX.PRE1.MISS` (R155): the candidate is abandoned. -/
def execRxPre1Miss (_b : Byte) (s : State) : Result := .next (s.setOffs 0)

/-- `RX.HDR` (R156). -/
def execRxHdr (b : Byte) (s : State) : Result :=
  whenOk (s.setHdr s.offs.toNat b) fun t => .next (t.setOffs (s.offs + 1))

/-- `RX.HDR.LAST` (R157): the eighth header byte is stored and the header is validated in the same
step. -/
def execRxHdrLast (b : Byte) (s : State) : Result := whenOk (s.setHdr (hdrLen - 1) b) headerComplete

/-- `RX.PAY` (R162). -/
def execRxPay (b : Byte) (s : State) : Result :=
  whenOk (memWrite s (s.loc.toNat + s.offs.toNat) b) fun t => .next (t.setOffs (s.offs + 1))

/-- `RX.PAY.LAST` (R163). -/
def execRxPayLast (b : Byte) (s : State) : Result :=
  whenOk (memWrite s (s.loc.toNat + s.offs.toNat) b) fun t => .next (t.setPos .footer 0)

/-- `RX.FTR` (R164). -/
def execRxFtr (b : Byte) (s : State) : Result :=
  whenOk (s.setFtr s.offs.toNat b) fun t => .next (t.setOffs (s.offs + 1))

/-- `RX.FTR.LAST` (R165): the fourth footer byte is stored and the packet is judged in the same
step. -/
def execRxFtrLast (b : Byte) (s : State) : Result := whenOk (s.setFtr (ftrLen - 1) b) footerComplete

/-- Perform a byte operation on the input byte `b`. -/
def byteStep (op : ByteOp) (b : Byte) (s : State) : Result :=
  match op with
  | .pre0Hit => execRxPre0Hit s
  | .pre0Skip => execRxPre0Skip b s
  | .pre1Hit => execRxPre1Hit s
  | .pre1Retry => execRxPre1Retry s
  | .pre1Miss => execRxPre1Miss b s
  | .hdr => execRxHdr b s
  | .hdrLast => execRxHdrLast b s
  | .pay => execRxPay b s
  | .payLast => execRxPayLast b s
  | .ftr => execRxFtr b s
  | .ftrLast => execRxFtrLast b s

/-- The input `RXBYTE(b)` (R150): exactly one byte operation. -/
def rxByte (b : Byte) (s : State) : Result :=
  match byteOp s.phase s.offs s.header.length b with
  | some op => byteStep op b s
  | none => .refused .noOperation

/-- `BURST` (R227): `RXBYTE` of each byte in order; an empty burst is no step at all. It is no input and
no step takes it (R9): it names the effect of the steps of its bytes together, the events of all of
them in order (log entry 6). -/
def execBurst (bytes : List Byte) (s : State) : Result :=
  match bytes with
  | [] => .next s
  | b :: rest =>
    match rxByte b s with
    | .next t => execBurst rest t
    | .fault f => .fault f
    | .refused r => .refused r

end Sys2Proof.Machine
end

