-- ==== Sys2Proof/Machine/HostOps.lean ====
section
/-! DEFINITION. The host operations (43_host_ops R220 to R226). None of them emits an event. -/

namespace Sys2Proof.Machine

/-- `HARD_RESET` (R220, R280): every register at its reset value, `BUF` unspecified (nothing listed).
The configuration and the model's own port fields are not registers of the block. -/
def execHardReset (s : State) : Result :=
  .next { State.resetWith s.cfg with inputs := s.inputs, events := s.events, readData := s.readData }

/-- `CMD.LINK_RESET` (R221). -/
def execCmdLinkReset (_v : Word) (s : State) : Result := .next (linkReset s)

/-- `CMD.RX_ABORT` (R222): the parser back to the marker search, everything else unchanged. -/
def execCmdRxAbort (_v : Word) (s : State) : Result := .next (s.setPos .preamble 0)

/-- `CMD.NOP` (R226). -/
def execCmdNop (_v : Word) (s : State) : Result := .next s

/-- `CSR.WRITE.RX_CFG` (R223): `MAX_PAYLOAD <- v[15:0]`. -/
def execCsrWriteRxCfg (v : Word) (s : State) : Result :=
  .next { s with maxPayload := v.extractLsb' 0 16 }

/-- `CSR.WRITE.IGNORED` (R225). -/
def execCsrWriteIgnored (_n : Nat) (_v : Word) (s : State) : Result := .next s

/-- `CSR.READ` (R224): the value is returned; no other state changes (R75). -/
def execCsrRead (n : Nat) (s : State) : Result := .next { s with readData := some (readReg s n) }

end Sys2Proof.Machine
end

