-- ==== Sys2Proof/Machine/Dispatch.lean ====
section
/-! DEFINITION. One arm per row of opcode_table.json. -/

namespace Sys2Proof.Machine

def exec (i : Instr) (s : State) : Host.Outcome State Fault Refusal :=
  match i with
  | .pktBadsum h => Sys2Proof.Machine.execPktBadsum h s
  | .pktReset h => Sys2Proof.Machine.execPktReset h s
  | .pktResetAck h => Sys2Proof.Machine.execPktResetAck h s
  | .pktResetAckStray h => Sys2Proof.Machine.execPktResetAckStray h s
  | .pktCtrlUnfin h => Sys2Proof.Machine.execPktCtrlUnfin h s
  | .pktAttrRsvd h => Sys2Proof.Machine.execPktAttrRsvd h s
  | .pktAck h => Sys2Proof.Machine.execPktAck h s
  | .pktAckUnfin h => Sys2Proof.Machine.execPktAckUnfin h s
  | .pktDataResetting h => Sys2Proof.Machine.execPktDataResetting h s
  | .pktDataOrder h => Sys2Proof.Machine.execPktDataOrder h s
  | .pktDataFrag h => Sys2Proof.Machine.execPktDataFrag h s
  | .pktDataFin h => Sys2Proof.Machine.execPktDataFin h s
  | .rxPre0Hit => Sys2Proof.Machine.execRxPre0Hit s
  | .rxPre0Skip b => Sys2Proof.Machine.execRxPre0Skip b s
  | .rxPre1Hit => Sys2Proof.Machine.execRxPre1Hit s
  | .rxPre1Retry => Sys2Proof.Machine.execRxPre1Retry s
  | .rxPre1Miss b => Sys2Proof.Machine.execRxPre1Miss b s
  | .rxHdr b => Sys2Proof.Machine.execRxHdr b s
  | .rxHdrLast b => Sys2Proof.Machine.execRxHdrLast b s
  | .rxPay b => Sys2Proof.Machine.execRxPay b s
  | .rxPayLast b => Sys2Proof.Machine.execRxPayLast b s
  | .rxFtr b => Sys2Proof.Machine.execRxFtr b s
  | .rxFtrLast b => Sys2Proof.Machine.execRxFtrLast b s
  | .hdrendErrHeader => Sys2Proof.Machine.execHdrendErrHeader s
  | .hdrendErrOom => Sys2Proof.Machine.execHdrendErrOom s
  | .hdrendToFooter => Sys2Proof.Machine.execHdrendToFooter s
  | .hdrendToPayload => Sys2Proof.Machine.execHdrendToPayload s
  | .hardReset => Sys2Proof.Machine.execHardReset s
  | .cmdLinkReset v => Sys2Proof.Machine.execCmdLinkReset v s
  | .cmdRxAbort v => Sys2Proof.Machine.execCmdRxAbort v s
  | .cmdNop v => Sys2Proof.Machine.execCmdNop v s
  | .csrWriteRxCfg v => Sys2Proof.Machine.execCsrWriteRxCfg v s
  | .csrWriteIgnored n v => Sys2Proof.Machine.execCsrWriteIgnored n v s
  | .csrRead n => Sys2Proof.Machine.execCsrRead n s
  | .burst bytes => Sys2Proof.Machine.execBurst bytes s

end Sys2Proof.Machine
end

