-- ==== Sys2Proof/Machine/Fetch.lean ====
section
/-! DEFINITION. Where an operation stands so that the next step runs it (log entries 10 and 11). The
block has no instruction memory (R60): a byte or a host operation is placed as the next input, a
packet as a footer one byte short of complete. -/

namespace Sys2Proof.Machine

/-- The input comes next. -/
def placeInput (i : Input) (s : State) : State := { s with inputs := i :: s.inputs }

/-- A received byte comes next, at the marker position at which the table word is read. -/
def placeByte (b : Byte) (s : State) : State :=
  placeInput (.rxByte b) (s.setPos .preamble (tableOffs b))

/-- `n` zero bytes of payload from address `a` on. -/
def placeZeros (m : List Host.Cell) (a : Nat) : Nat → List Host.Cell
  | 0 => m
  | n + 1 => placeZeros (Memory.write m a 0) (a + 1) n

/-- A packet with header `h`, payload zeros and a verifying footer, of which the last footer byte comes
next, in mode RESETTING (the selecting state of `tableCtx`). A header whose payload cannot fit never
reaches a footer (R159): of such a packet the last header byte comes next. -/
def placePacket (h : Header) (s : State) : State :=
  if s.loc.toNat + h.length.toNat ≤ s.cfg.dgramBufSize then
    let c := checksum s.cfg.checksum (covered h.bytes (List.replicate h.length.toNat 0))
    placeInput (.rxByte (wordByte c 3))
      { s with
        phase := .footer, offs := BitVec.ofNat 16 (ftrLen - 1), hdr := h.toHdr,
        ftr := #v[wordByte c 0, wordByte c 1, wordByte c 2, 0],
        buf := placeZeros s.buf s.loc.toNat h.length.toNat, resetState := .resetting }
  else placeInput (.rxByte h.rsvd1) { s with phase := .header, offs := BitVec.ofNat 16 (hdrLen - 1), hdr := h.toHdr }

/-- The word of a table row, placed (`decodeTableWord` says which words are read how). -/
def placeTableWord (nbits w : Nat) (s : State) : State :=
  if nbits = 8 then placeByte (BitVec.ofNat 8 w) s
  else if nbits = 32 then placeInput (.csrWrite 0 (BitVec.ofNat 32 w)) s
  else if nbits = 8 * (preLen + hdrLen) then
    match headerOfPacket (wordBytes (preLen + hdrLen) w) with
    | .ok h => placePacket h s
    | .error _ => s
  else s

end Sys2Proof.Machine
end

