-- ==== Sys2Proof/Machine/Step.lean ====
section
/-! DEFINITION. One step: the block's response to one input (00_scope R9). -/

namespace Sys2Proof.Machine

/-- Take the next input, select its operation, perform it (R9, R70). With no input the block is idle
(R261, R283; log entry 7). -/
def step (s : State) : Host.Outcome State Fault Refusal :=
  match fetch s with
  | none => .next (idle s)
  | some (i, t) =>
    match decode (t.ctx false) (.input i) with
    | .ok ins => exec ins t
    | .error _ => .refused .noOperation

/-- The state with a table word placed where the next step takes it (log entries 10 and 11). -/
def State.withFetchWord (s : State) (nbits w : Nat) : State := placeTableWord nbits w s

end Sys2Proof.Machine
end

