-- ==== Sys2Proof/Machine/Stimulus.lean ====
section
/-! DEFINITION. The stimulus notation of 30_encoding R107 and R108: what inputs each directive expands
to. It belongs to the environment; the machine does not read it. -/

namespace Sys2Proof.Machine

/-- `BYTES b0 ... bn`. -/
def stimBytes (bs : List Byte) : List Input := bs.map .rxByte

/-- `PKT flags code ack seq [payload]` with reserved bytes `r0`, `r1`. -/
def stimPkt (alg : ChecksumAlg) (flags code ack seq r0 r1 : Byte) (payload : List Byte) : List Input :=
  stimBytes (encodePacket alg flags code ack seq payload r0 r1)

/-- The expansion of a directive (R107, R108). `BURST` is "same as `BYTES`". -/
def expandDirective (alg : ChecksumAlg) : Directive → List Input
  | .bytes bs => stimBytes bs
  | .pkt flags code ack seq payload => stimPkt alg flags code ack seq 0 0 payload
  | .pktr flags code ack seq r0 r1 payload => stimPkt alg flags code ack seq r0 r1 payload
  | .hardReset => [.hardReset]
  | .wr n v => [.csrWrite n v]
  | .rd n => [.csrRead n]
  | .idle n => stimBytes (List.replicate n 0)
  | .data seq ack payload => stimPkt alg 0 0 ack seq 0 0 payload
  | .frag seq ack payload => stimPkt alg 1 0 ack seq 0 0 payload
  | .ack ack => stimPkt alg 0 0 ack 0 0 0 []
  | .nak err ack => stimPkt alg 0 (err.setWidth 8) ack 0 0 0 []
  | .reset payload => stimPkt alg 0 0x10 0 0 0 0 payload
  | .resetAck payload => stimPkt alg 0 0x20 0 0 0 0 payload
  | .linkReset => [.csrWrite 0 1]
  | .rxAbort => [.csrWrite 0 2]
  | .setMax m => [.csrWrite 1 m]
  | .burst bs => stimBytes bs

/-- A script, top to bottom (R107). -/
def script (alg : ChecksumAlg) (ds : List Directive) : List Input :=
  ds.flatMap (expandDirective alg)

/-- The state with these inputs to come. -/
def State.withInputs (s : State) (is : List Input) : State := { s with inputs := is }

end Sys2Proof.Machine
end

