-- ==== Sys2Proof/Safety.lean ====
section
/-! DEFINITION. What counts as a safe state and a safe run: the invariants of 10_state R46 and the
written-before-read property of 20_memory R74. -/

namespace Sys2Proof.Machine

/-- How many bytes of `BUF`, from address 0, hold data: the accepted fragments `BUF[0..LOC)` and the
payload bytes of the packet attempt received so far (R32). -/
def State.filled (s : State) : Nat :=
  match s.phase with
  | .preamble => s.loc.toNat
  | .header => s.loc.toNat
  | .payload => s.loc.toNat + s.offs.toNat
  | .footer => s.loc.toNat + s.header.length.toNat

/-- R46, items 1 to 4: the range of the parser position in each phase, and room for the packet in
PAYLOAD and FOOTER. -/
def State.posOk (s : State) : Prop :=
  match s.phase with
  | .preamble => s.offs.toNat < preLen
  | .header => s.offs.toNat < hdrLen
  | .payload =>
    1 ≤ s.header.length.toNat ∧ s.offs.toNat < s.header.length.toNat ∧
      s.loc.toNat + s.header.length.toNat ≤ s.cfg.dgramBufSize
  | .footer =>
    s.offs.toNat < ftrLen ∧ s.loc.toNat + s.header.length.toNat ≤ s.cfg.dgramBufSize

/-- The invariant: R5 of the configuration, the canonical form of the memory inside the buffer,
R46 items 1 to 5, and R74 (every byte that a read of R68 can return has been written). -/
structure State.Inv (s : State) : Prop where
  cfgWf : s.cfg.wf = true
  bufWf : Memory.wf s.buf
  bufIn : ∀ c ∈ s.buf, c.1 < s.cfg.dgramBufSize
  pos : s.posOk
  locLe : s.loc.toNat ≤ s.cfg.dgramBufSize
  written : ∀ a < s.filled, (Memory.read s.buf a).isSome = true

/-- A step that does not stop and keeps the invariant. -/
def StepsSafely (s : State) : Prop := ∃ t, step s = .next t ∧ t.Inv

end Sys2Proof.Machine
end

