-- ==== Sys2Proof/Certificates/Slice0/Obligations.lean ====
section
/-! DEFINITION. The statements for the provers. Each docstring names the rule it formalises. A
statement about every state is a statement about every configuration, `CHECKSUM` included: the
configuration is a field of the state. -/

open Sys2Proof Sys2Proof.Machine

/-! ### Encoding -/

/-- R106: a few words written out from the rows of opcode_table.json decode to their rows: the byte
0x68, the write data 1 and 2 to `RX_CMD`, and the preamble and header of an ack-only packet, a RESET
packet and a data packet in mode RESETTING. (The state at which a table word is read is the model's
choice, log entry 11.) -/
def Obligations.TableWordsDecode : Prop :=
  decodeTableWord 8 0b01101000 = some .rxPre0Hit ∧
  decodeTableWord 8 0b01000011 = some .rxPre1Hit ∧
  decodeTableWord 32 1 = some (.cmdLinkReset 1) ∧
  decodeTableWord 32 2 = some (.cmdRxAbort 2) ∧
  decodeTableWord 32 0 = some (.cmdNop 0) ∧
  decodeTableWord 80 0x00000000000500004368 =
    some (.pktAck { flags := 0, code := 0, ackSeq := 5, seq := 0, length := 0, rsvd0 := 0, rsvd1 := 0 }) ∧
  decodeTableWord 80 0x00000004443310004368 =
    some (.pktReset { flags := 0, code := 0x10, ackSeq := 0x33, seq := 0x44, length := 4, rsvd0 := 0, rsvd1 := 0 }) ∧
  decodeTableWord 80 0xADDE00010003 = none

/-- R102 to R106: decode and encode agree: an operation whose operands its row admits, in a selecting
state that its row names, is what its code decodes to. -/
def Obligations.DecodeEncodeIsIdentity : Prop :=
  ∀ (c : Ctx) (i : Instr), i.wf = true → selects c i = true → decode c (encode i) = .ok i

/-- The other direction: whatever a code decodes to is an operation its row admits, selected in that
state, and its code is the one decoded, no bit of it dropped. -/
def Obligations.EncodeDecodeIsIdentity : Prop :=
  ∀ (c : Ctx) (code : Code) (i : Instr), decode c code = .ok i →
    i.wf = true ∧ selects c i = true ∧ encode i = code

/-- R104: for every position that R46 allows and every byte, exactly one row is selected. -/
def Obligations.EveryByteSelectsExactlyOne : Prop :=
  ∀ (s : State) (b : Byte) (v : Bool), s.posOk →
    ∃! i : Instr, i.wf = true ∧ selects (s.ctx v) i = true ∧ encode i = .input (.rxByte b)

/-- R102: the packet classes are total: every header selects exactly one of the twelve rows, whatever
the block's state. -/
def Obligations.EveryHeaderSelectsExactlyOneClass : Prop :=
  ∀ (c : Ctx) (h : Header),
    ∃! i : Instr, i.wf = true ∧ selects c i = true ∧ encode i = .packet (packetWord h)

/-- R102: the class of each header, by `ATTR` (`code` bits 7..4), `UNF` (`flags` bit 0), `LENGTH == 0` and
the block's state: the twelve rows; a packet whose checksum does not verify is `PKT.BADSUM` whatever
its header says. -/
def Obligations.HeaderSelectsItsClass : Prop :=
  ∀ (c : Ctx) (h : Header) (attr : Nibble) (unf : Bool),
    attr = h.code.extractLsb' 4 4 → unf = h.flags.getLsbD 0 →
    (c.verified = false → decode c (.packet (packetWord h)) = .ok (.pktBadsum h)) ∧
    (c.verified = true →
      (attr = 1 → unf = false → decode c (.packet (packetWord h)) = .ok (.pktReset h)) ∧
      (attr = 2 → unf = false → c.resetState = .resetting →
        decode c (.packet (packetWord h)) = .ok (.pktResetAck h)) ∧
      (attr = 2 → unf = false → c.resetState = .none →
        decode c (.packet (packetWord h)) = .ok (.pktResetAckStray h)) ∧
      (attr = 1 ∨ attr = 2 → unf = true → decode c (.packet (packetWord h)) = .ok (.pktCtrlUnfin h)) ∧
      (3 ≤ attr.toNat → decode c (.packet (packetWord h)) = .ok (.pktAttrRsvd h)) ∧
      (attr = 0 → h.length = 0 → unf = false → decode c (.packet (packetWord h)) = .ok (.pktAck h)) ∧
      (attr = 0 → h.length = 0 → unf = true → decode c (.packet (packetWord h)) = .ok (.pktAckUnfin h)) ∧
      (attr = 0 → h.length ≠ 0 → c.resetState = .resetting →
        decode c (.packet (packetWord h)) = .ok (.pktDataResetting h)) ∧
      (attr = 0 → h.length ≠ 0 → c.resetState = .none → h.seq ≠ c.expectedSeq →
        decode c (.packet (packetWord h)) = .ok (.pktDataOrder h)) ∧
      (attr = 0 → h.length ≠ 0 → c.resetState = .none → h.seq = c.expectedSeq → unf = true →
        decode c (.packet (packetWord h)) = .ok (.pktDataFrag h)) ∧
      (attr = 0 → h.length ≠ 0 → c.resetState = .none → h.seq = c.expectedSeq → unf = false →
        decode c (.packet (packetWord h)) = .ok (.pktDataFin h)))

/-- R105: the operation of each host input. With both command bits set a write to `RX_CMD` is
`CMD.LINK_RESET` alone, and bits 31..2 never matter (R226). -/
def Obligations.RegisterWriteSelects : Prop :=
  ∀ (c : Ctx) (n : Nat) (v : Word),
    (n = 0 → v.getLsbD 0 = true → decode c (.input (.csrWrite n v)) = .ok (.cmdLinkReset v)) ∧
    (n = 0 → v.getLsbD 0 = false → v.getLsbD 1 = true →
      decode c (.input (.csrWrite n v)) = .ok (.cmdRxAbort v)) ∧
    (n = 0 → v.getLsbD 0 = false → v.getLsbD 1 = false →
      decode c (.input (.csrWrite n v)) = .ok (.cmdNop v)) ∧
    (n = 1 → decode c (.input (.csrWrite n v)) = .ok (.csrWriteRxCfg v)) ∧
    (2 ≤ n → decode c (.input (.csrWrite n v)) = .ok (.csrWriteIgnored n v)) ∧
    decode c (.input .hardReset) = .ok .hardReset ∧
    decode c (.input (.csrRead n)) = .ok (.csrRead n)

/-- R295: in HEADER, PAYLOAD and FOOTER the parser counts bytes and does not look at their values. -/
def Obligations.ByteValueMattersOnlyInPreamble : Prop :=
  ∀ (p : Phase) (o l : Half) (b b' : Byte), p ≠ .preamble → byteOp p o l b = byteOp p o l b'

/-- R62, R99, R132: `LENGTH = HDR[4] + 256 * HDR[5]` and the received checksum is assembled
little-endian from `FTR`, as numbers. -/
def Obligations.MultiByteFieldsAreLittleEndian : Prop :=
  (∀ hdr : Vector Byte 8, (headerOf hdr).length.toNat = hdr[4].toNat + 256 * hdr[5].toNat) ∧
  (∀ ftr : Vector Byte 4, (rxsum ftr).toNat =
    ftr[0].toNat + 2 ^ 8 * ftr[1].toNat + 2 ^ 16 * ftr[2].toNat + 2 ^ 24 * ftr[3].toNat)

/-! ### Steps -/

/-- R9, R70: a step takes the oldest pending input, the pulses of the step before are gone, and the
operation the input decodes to is performed. (The input list and the pulses are the model's own
fields, log entries 1 and 2.) -/
def Obligations.StepPerformsDecodedInput : Prop :=
  ∀ (s : State) (i : Input) (rest : List Input) (ins : Instr),
    s.inputs = i :: rest → decode (s.ctx false) (.input i) = .ok ins →
    step s = exec ins { s with inputs := rest, events := [], readData := none }

/-- R261, R283: with no input the block stays in its state and emits nothing (log entry 7). -/
def Obligations.NoInputChangesNothing : Prop :=
  ∀ s : State, s.inputs = [] → step s = .next { s with events := [], readData := none }

/-- R157: `RX.HDR.LAST` stores the byte in `HDR[7]` and performs exactly the header-completion outcome
that the operation map selects in the state so reached. -/
def Obligations.HeaderLastPerformsItsOutcome : Prop :=
  ∀ (s : State) (b : Byte) (v : Bool),
    ∃ i, decode (State.ctx { s with hdr := s.hdr.setIfInBounds 7 b } v) .headerEnd = .ok i ∧
      exec (.rxHdrLast b) s = exec i { s with hdr := s.hdr.setIfInBounds 7 b }

/-- R165, R180: `RX.FTR.LAST` stores the byte in `FTR[3]`, returns the parser to `(PREAMBLE, 0)`,
evaluates `VERIFY`, and performs exactly the packet class that the operation map selects for the
packet whose header is in `HDR`. -/
def Obligations.FooterLastPerformsItsClass : Prop :=
  ∀ (s t : State) (b : Byte) (v : Bool),
    t = { s with ftr := s.ftr.setIfInBounds 3 b, phase := .preamble, offs := 0 } → verify t = .ok v →
    (s.phase = .footer → s.offs = 3 → decode (s.ctx v) (.input (.rxByte b)) = .ok (.rxFtrLast b)) ∧
    ∃ i, decode (t.ctx v) (.packet ([0x68, 0x43] ++ t.hdr.toList)) = .ok i ∧
      exec (.rxFtrLast b) s = exec i t

/-! ### Byte operations: what each does -/

/-- R151 to R155: the marker search. Each row is selected as its rule says and changes `PHASE` and
`OFFS` as its rule says, and nothing else: the byte is not stored anywhere. -/
def Obligations.MarkerSearchMovesOnlyThePosition : Prop :=
  ∀ (s : State) (v : Bool) (b : Byte),
    exec .rxPre0Hit s = .next { s with offs := 1 } ∧
    exec (.rxPre0Skip b) s = .next s ∧
    exec .rxPre1Hit s = .next { s with phase := .header, offs := 0 } ∧
    exec .rxPre1Retry s = .next { s with offs := 1 } ∧
    exec (.rxPre1Miss b) s = .next { s with offs := 0 } ∧
    (s.phase = .preamble → s.offs = 0 →
      decode (s.ctx v) (.input (.rxByte b)) = .ok (if b = 0x68 then .rxPre0Hit else .rxPre0Skip b)) ∧
    (s.phase = .preamble → s.offs = 1 →
      decode (s.ctx v) (.input (.rxByte b)) =
        .ok (if b = 0x43 then .rxPre1Hit else if b = 0x68 then .rxPre1Retry else .rxPre1Miss b))

/-- R156: a header byte before the last, any byte, is captured at `HDR[OFFS]`, `OFFS` advances, nothing
else changes. -/
def Obligations.HeaderByteIsCaptured : Prop :=
  ∀ (s : State) (b : Byte) (v : Bool), s.offs.toNat ≤ 6 →
    (s.phase = .header → decode (s.ctx v) (.input (.rxByte b)) = .ok (.rxHdr b)) ∧
    exec (.rxHdr b) s =
      .next { s with hdr := s.hdr.setIfInBounds s.offs.toNat b, offs := s.offs + 1 }

/-- R157 to R161: the four ends of a header, tested in this order, for every state: HEADER, OOM, a
footer, a payload. `t` is the state with the eighth byte stored. -/
def Obligations.HeaderLastHasFourEnds : Prop :=
  ∀ (s t : State) (b : Byte) (v : Bool), t = { s with hdr := s.hdr.setIfInBounds 7 b } →
    (s.phase = .header → s.offs = 7 → decode (s.ctx v) (.input (.rxByte b)) = .ok (.rxHdrLast b)) ∧
    (t.header.length.toNat > s.maxPayload.toNat →
      exec (.rxHdrLast b) s = .next { t with
        localErr := 4, phase := .preamble, offs := 0,
        events := s.events ++ [eventOf .errHeader t.header []] }) ∧
    (t.header.length.toNat ≤ s.maxPayload.toNat →
      s.loc.toNat + t.header.length.toNat > s.cfg.dgramBufSize →
      exec (.rxHdrLast b) s = .next { t with
        localErr := 2, phase := .preamble, offs := 0,
        events := s.events ++ [eventOf .errOom t.header []] }) ∧
    (t.header.length.toNat ≤ s.maxPayload.toNat →
      s.loc.toNat + t.header.length.toNat ≤ s.cfg.dgramBufSize → t.header.length.toNat = 0 →
      exec (.rxHdrLast b) s = .next { t with phase := .footer, offs := 0 }) ∧
    (t.header.length.toNat ≤ s.maxPayload.toNat →
      s.loc.toNat + t.header.length.toNat ≤ s.cfg.dgramBufSize → t.header.length.toNat ≥ 1 →
      exec (.rxHdrLast b) s = .next { t with phase := .payload, offs := 0 })

/-- R158 to R161, R250: what each header-completion outcome does, in every state. -/
def Obligations.HeaderEndOutcomes : Prop :=
  ∀ s : State,
    exec .hdrendErrHeader s = .next { s with
      localErr := 4, phase := .preamble, offs := 0,
      events := s.events ++ [eventOf .errHeader s.header []] } ∧
    exec .hdrendErrOom s = .next { s with
      localErr := 2, phase := .preamble, offs := 0,
      events := s.events ++ [eventOf .errOom s.header []] } ∧
    exec .hdrendToFooter s = .next { s with phase := .footer, offs := 0 } ∧
    exec .hdrendToPayload s = .next { s with phase := .payload, offs := 0 }

/-- R162, R163, R67: a payload byte is stored at `LOC + OFFS` when that address is in the buffer;
every other byte of `BUF` reads as before; `LOC` does not move; the position advances, or the footer
begins. -/
def Obligations.PayloadByteIsStored : Prop :=
  ∀ (s : State) (b : Byte) (v : Bool), s.loc.toNat + s.offs.toNat < s.cfg.dgramBufSize →
    (s.phase = .payload → s.offs.toNat + 1 < s.header.length.toNat →
      decode (s.ctx v) (.input (.rxByte b)) = .ok (.rxPay b)) ∧
    (s.phase = .payload → s.offs.toNat + 1 = s.header.length.toNat →
      decode (s.ctx v) (.input (.rxByte b)) = .ok (.rxPayLast b)) ∧
    ∃ m, Memory.read m (s.loc.toNat + s.offs.toNat) = some b ∧
      (∀ a, a ≠ s.loc.toNat + s.offs.toNat → Memory.read m a = Memory.read s.buf a) ∧
      exec (.rxPay b) s = .next { s with buf := m, offs := s.offs + 1 } ∧
      exec (.rxPayLast b) s = .next { s with buf := m, phase := .footer, offs := 0 }

/-- R60, R67: a store at an address that does not exist stops by name. R67 says it "cannot happen":
it needs a state outside R46. The stop is the model's choice, log entry 8. -/
def Obligations.PayloadStoreOutsideBufferStops : Prop :=
  ∀ (s : State) (b : Byte), s.cfg.dgramBufSize ≤ s.loc.toNat + s.offs.toNat →
    exec (.rxPay b) s = .fault .bufOutOfRange ∧ exec (.rxPayLast b) s = .fault .bufOutOfRange

/-- R164: a footer byte before the last is captured at `FTR[OFFS]`, `OFFS` advances, nothing else
changes. -/
def Obligations.FooterByteIsCaptured : Prop :=
  ∀ (s : State) (b : Byte) (v : Bool), s.offs.toNat ≤ 2 →
    (s.phase = .footer → decode (s.ctx v) (.input (.rxByte b)) = .ok (.rxFtr b)) ∧
    exec (.rxFtr b) s =
      .next { s with ftr := s.ftr.setIfInBounds s.offs.toNat b, offs := s.offs + 1 }

/-- An index of a holding register that does not exist stops by name: positions outside R46. The stop
is the model's choice, log entry 8. -/
def Obligations.HoldingIndexOutsideRegisterStops : Prop :=
  ∀ (s : State) (b : Byte),
    (8 ≤ s.offs.toNat → exec (.rxHdr b) s = .fault .holdingIndex) ∧
    (4 ≤ s.offs.toNat → exec (.rxFtr b) s = .fault .holdingIndex)

/-- R165, R180, R252: whatever the verdict, the fourth footer byte is stored in `FTR[3]`, the parser is
back in `(PREAMBLE, 0)`, exactly one event is emitted, `LOCAL_ERR` is the wire code of its disposition
(R240), and `HDR`, `MAX_PAYLOAD`, `BUF` are unchanged. The bytes of the buffer that a read of R68 can
reach are readable. -/
def Obligations.FooterLastAlwaysJudges : Prop :=
  ∀ (s : State) (b : Byte),
    (∀ a < s.loc.toNat + s.header.length.toNat,
      a < s.cfg.dgramBufSize ∧ (Memory.read s.buf a).isSome = true) →
    ∃ t d data, exec (.rxFtrLast b) s = .next t ∧
      t.phase = .preamble ∧ t.offs = 0 ∧ t.ftr = s.ftr.setIfInBounds 3 b ∧
      t.events = s.events ++ [eventOf d s.header data] ∧ t.localErr = d.wire ∧
      t.hdr = s.hdr ∧ t.maxPayload = s.maxPayload ∧ t.buf = s.buf ∧ t.cfg = s.cfg ∧
      t.inputs = s.inputs ∧ t.readData = s.readData

/-! ### Packet classes: what each does -/

/-- R181, R191, R250: an error takes the one error entry: `LOCAL_ERR` has the wire code, the parser is
in `(PREAMBLE, 0)`, one event without data; nothing else changes. -/
def Obligations.ErrorClassesTakeTheErrorEntry : Prop :=
  ∀ (s : State) (h : Header),
    exec (.pktBadsum h) s = .next { s with
      localErr := 1, phase := .preamble, offs := 0,
      events := s.events ++ [eventOf .errChecksum h []] } ∧
    exec (.pktDataOrder h) s = .next { s with
      localErr := 5, phase := .preamble, offs := 0,
      events := s.events ++ [eventOf .errOrder h []] }

/-- R185, R186, R187, R189, R190: a drop writes 0 to `LOCAL_ERR` and emits its event; nothing else
changes. -/
def Obligations.DropsChangeOnlyLocalErr : Prop :=
  ∀ (s : State) (h : Header),
    exec (.pktResetAckStray h) s = .next { s with
      localErr := 0, events := s.events ++ [eventOf .dropProto h []] } ∧
    exec (.pktCtrlUnfin h) s = .next { s with
      localErr := 0, events := s.events ++ [eventOf .dropProto h []] } ∧
    exec (.pktAttrRsvd h) s = .next { s with
      localErr := 0, events := s.events ++ [eventOf .dropProto h []] } ∧
    exec (.pktAckUnfin h) s = .next { s with
      localErr := 0, events := s.events ++ [eventOf .dropProto h []] } ∧
    exec (.pktDataResetting h) s = .next { s with
      localErr := 0, events := s.events ++ [eventOf .dropResetting h []] }

/-- R183, R184: an accepted control packet hands over its configuration payload, zeroes the counters
and `LOC`, records the peer's error code and leaves RESETTING; nothing else changes. -/
def Obligations.ControlPacketsResetTheLink : Prop :=
  ∀ (s : State) (h : Header) (data : List Byte),
    memRead s s.loc.toNat h.length.toNat = .ok data →
    exec (.pktReset h) s = .next { s with
      expectedSeq := 0, rxAckSeq := 0, loc := 0, peerErr := h.code.extractLsb' 0 4, localErr := 0,
      resetState := .none, events := s.events ++ [eventOf .reset h data] } ∧
    exec (.pktResetAck h) s = .next { s with
      expectedSeq := 0, rxAckSeq := 0, loc := 0, peerErr := h.code.extractLsb' 0 4, localErr := 0,
      resetState := .none, events := s.events ++ [eventOf .resetAck h data] }

/-- R188: an ack-only packet updates the acknowledgment and the peer's error code, and nothing of the
reassembly or the expected number, in either mode. -/
def Obligations.AckOnlyTakesTheAcknowledgment : Prop :=
  ∀ (s : State) (h : Header),
    exec (.pktAck h) s = .next { s with
      rxAckSeq := h.ackSeq, peerErr := h.code.extractLsb' 0 4, localErr := 0,
      events := s.events ++ [eventOf .ackOnly h []] }

/-- R192, R194: an in-order fragment advances `EXPECTED_SEQ` modulo 256, takes the acknowledgment and
the peer's error code, and moves `LOC` past the payload, as a natural number where that fits 32 bits
(R111: no wrap under R46); nothing is delivered, nothing else changes. -/
def Obligations.FragmentIsAccepted : Prop :=
  ∀ (s : State) (h : Header),
    ∃ l : Word, exec (.pktDataFrag h) s = .next { s with
        expectedSeq := h.seq + 1, rxAckSeq := h.ackSeq, peerErr := h.code.extractLsb' 0 4,
        localErr := 0, loc := l, events := s.events ++ [eventOf .acceptFragment h []] } ∧
      (s.loc.toNat + h.length.toNat < 2 ^ 32 → l.toNat = s.loc.toNat + h.length.toNat) ∧
      (h.seq + 1).toNat = (h.seq.toNat + 1) % 256

/-- R193, R194: an in-order final packet delivers `BUF[0..LOC+LENGTH)` whole, with `LOC` as it was
before, then `LOC` is 0; nothing else changes. -/
def Obligations.DatagramIsDelivered : Prop :=
  ∀ (s : State) (h : Header) (data : List Byte),
    memRead s 0 (s.loc.toNat + h.length.toNat) = .ok data →
    exec (.pktDataFin h) s = .next { s with
      expectedSeq := h.seq + 1, rxAckSeq := h.ackSeq, peerErr := h.code.extractLsb' 0 4,
      localErr := 0, loc := 0, events := s.events ++ [eventOf .acceptDatagram h data] }

/-- A packet whose buffer bytes cannot be read stops by the name of the failed read (R74: such a state
is outside the invariants). The stop is the model's choice, log entries 5 and 8. -/
def Obligations.UnreadablePayloadStops : Prop :=
  ∀ (s : State) (h : Header) (f : Fault),
    (memRead s s.loc.toNat h.length.toNat = .error f →
      exec (.pktReset h) s = .fault f ∧ exec (.pktResetAck h) s = .fault f) ∧
    (memRead s 0 (s.loc.toNat + h.length.toNat) = .error f → exec (.pktDataFin h) s = .fault f)

/-- R8: `MemRead(a, n)` is the byte list `[BUF[a], ..., BUF[a+n-1]]`, every address inside the buffer. -/
def Obligations.MemReadIsTheByteList : Prop :=
  ∀ (s : State) (a n : Nat) (bs : List Byte),
    memRead s a n = .ok bs ↔
      bs.length = n ∧
        ∀ i, i < n → a + i < s.cfg.dgramBufSize ∧ Memory.read s.buf (a + i) = bs[i]?

/-- R133, R137, R181: whatever its header says, a packet whose received checksum differs from the
computed one takes the CHECKSUM error and changes nothing but `LOCAL_ERR`, `FTR[3]` and the
position. -/
def Obligations.CorruptedPacketIsRejected : Prop :=
  ∀ (s : State) (b : Byte) (payload : List Byte),
    memRead s s.loc.toNat s.header.length.toNat = .ok payload →
    rxsum (s.ftr.setIfInBounds 3 b) ≠ checksum s.cfg.checksum ([0x68, 0x43] ++ s.hdr.toList ++ payload) →
    exec (.rxFtrLast b) s = .next { s with
      ftr := s.ftr.setIfInBounds 3 b, localErr := 1, phase := .preamble, offs := 0,
      events := s.events ++ [eventOf .errChecksum s.header []] }

/-! ### Host operations: what each does -/

/-- R220, R280: `HARD_RESET` puts every register at its reset value from any state and emits no event;
the configuration is not touched. -/
def Obligations.HardResetValues : Prop :=
  ∀ s : State, ∃ t, exec .hardReset s = .next t ∧
    t.phase = .preamble ∧ t.offs = 0 ∧ t.hdr = #v[0, 0, 0, 0, 0, 0, 0, 0] ∧ t.ftr = #v[0, 0, 0, 0] ∧
    t.loc = 0 ∧ t.expectedSeq = 0 ∧ t.rxAckSeq = 0 ∧ t.peerErr = 0 ∧ t.localErr = 0 ∧
    t.resetState = .resetting ∧ t.maxPayload = s.cfg.maxPayloadReset ∧
    t.cfg = s.cfg ∧ t.inputs = s.inputs ∧ t.events = s.events ∧ t.readData = s.readData

/-- R221, R222, R223, R225, R226: what a register write does; the named fields and nothing else. -/
def Obligations.RegisterWritesDo : Prop :=
  ∀ (s : State) (n : Nat) (v : Word),
    exec (.cmdLinkReset v) s = .next { s with
      phase := .preamble, offs := 0, loc := 0, expectedSeq := 0, rxAckSeq := 0, peerErr := 0,
      localErr := 0, resetState := .resetting } ∧
    exec (.cmdRxAbort v) s = .next { s with phase := .preamble, offs := 0 } ∧
    exec (.cmdNop v) s = .next s ∧
    exec (.csrWriteRxCfg v) s = .next { s with maxPayload := v.extractLsb' 0 16 } ∧
    exec (.csrWriteIgnored n v) s = .next s

/-- R224, R75: a register read returns the value of the rule, as a number, for every register number,
and changes nothing else. -/
def Obligations.RegisterReadValues : Prop :=
  ∀ (s : State) (n : Nat), ∃ w : Word,
    exec (.csrRead n) s = .next { s with readData := some w } ∧
    (n = 0 ∨ 8 ≤ n → w.toNat = 0) ∧
    (n = 1 → w.toNat = s.maxPayload.toNat) ∧
    (n = 2 → w.toNat = s.phase.code.toNat + 4 * s.resetState.bit.toNat + 65536 * s.offs.toNat) ∧
    (n = 3 → w.toNat = s.expectedSeq.toNat + 2 ^ 8 * s.rxAckSeq.toNat + 2 ^ 16 * s.peerErr.toNat
      + 2 ^ 20 * s.localErr.toNat) ∧
    (n = 4 → w.toNat = s.loc.toNat) ∧
    (n = 5 → w.toNat = s.hdr[0].toNat + 2 ^ 8 * s.hdr[1].toNat + 2 ^ 16 * s.hdr[2].toNat
      + 2 ^ 24 * s.hdr[3].toNat) ∧
    (n = 6 → w.toNat = s.hdr[4].toNat + 2 ^ 8 * s.hdr[5].toNat + 2 ^ 16 * s.hdr[6].toNat
      + 2 ^ 24 * s.hdr[7].toNat) ∧
    (n = 7 → w.toNat = s.ftr[0].toNat + 2 ^ 8 * s.ftr[1].toNat + 2 ^ 16 * s.ftr[2].toNat
      + 2 ^ 24 * s.ftr[3].toNat)

/-- R280, R37, R38, R39, R42: what the host reads right after reset, and the level outputs, for every
configuration. -/
def Obligations.RegistersAfterReset : Prop :=
  ∀ cfg : Config,
    readReg (State.resetWith cfg) 0 = 0 ∧
    (readReg (State.resetWith cfg) 1).toNat = cfg.maxPayloadReset.toNat ∧
    readReg (State.resetWith cfg) 2 = 0x00000004 ∧
    (∀ n, 3 ≤ n → readReg (State.resetWith cfg) n = 0) ∧
    (State.resetWith cfg).outputs =
      { expectedSeq := 0, rxAckSeq := 0, peerErr := 0, localErr := 0, resetting := 1 }

/-! ### Bursts -/

/-- R227: an empty burst is no step at all, and the result of bursts depends only on their
concatenation, not on where they are cut, whatever the outcome. -/
def Obligations.BurstDependsOnConcatenation : Prop :=
  ∀ (s : State), exec (.burst []) s = .next s ∧
    ∀ (xs ys : List Byte),
      (∀ t, exec (.burst xs) s = .next t → exec (.burst (xs ++ ys)) s = exec (.burst ys) t) ∧
      (∀ f, exec (.burst xs) s = .fault f → exec (.burst (xs ++ ys)) s = .fault f) ∧
      (∀ r, exec (.burst xs) s = .refused r → exec (.burst (xs ++ ys)) s = .refused r)

/-- R227: a burst is `RXBYTE` of each byte in order: performing it has the same effect on the block as
that many steps with the bytes pending one by one, and a burst is no input of its own (R9); only the
pulses of the model's ports differ (the last step shows its own, a burst shows all). -/
def Obligations.BurstIsItsByteSteps : Prop :=
  ∀ (s t : State) (bs : List Byte) (rest : List Input),
    exec (.burst bs) { s with inputs := rest, events := [], readData := none } = .next t →
    ∃ u, Sys2Proof.core.run bs.length { s with inputs := bs.map .rxByte ++ rest } = .next u ∧
      { u with events := [], readData := none } = { t with events := [], readData := none }

/-- R46, R74, R249: from a state that meets the invariant a burst of any bytes completes, and the state
it leaves meets the invariant. -/
def Obligations.BurstAlwaysCompletes : Prop :=
  ∀ (s : State) (bs : List Byte), s.Inv → ∃ t, exec (.burst bs) s = .next t ∧ t.Inv

/-- R301(b) for a block in `(PREAMBLE, 0)`, from R152: bytes among which 0x68 does not occur change
nothing. (At `(PREAMBLE, 1)` the sentence of R301(b) does not hold of a first byte 0x43, which R153
takes as the marker: log entry 12.) -/
def Obligations.IdleBytesChangeNothing : Prop :=
  ∀ (s : State) (bs : List Byte), s.phase = .preamble → s.offs = 0 → (0x68 : Byte) ∉ bs →
    exec (.burst bs) s = .next s

/-- R287, R301(c): a packet attempt ends after exactly the bytes that the header declares: `LENGTH -
OFFS + 4` further bytes in PAYLOAD and `4 - OFFS` in FOOTER bring the parser back to `(PREAMBLE, 0)`,
whatever their values. -/
def Obligations.AttemptEndsAfterDeclaredBytes : Prop :=
  ∀ (s : State) (bs : List Byte), s.Inv →
    (s.phase = .payload → bs.length = s.header.length.toNat - s.offs.toNat + 4 →
      ∃ t, exec (.burst bs) s = .next t ∧ t.phase = .preamble ∧ t.offs = 0) ∧
    (s.phase = .footer → bs.length = 4 - s.offs.toNat →
      ∃ t, exec (.burst bs) s = .next t ∧ t.phase = .preamble ∧ t.offs = 0)

/-! ### Invariants -/

/-- R46 ("true after reset"), R280: the invariant holds after reset under every legal configuration. -/
def Obligations.ResetMeetsInvariant : Prop :=
  (∀ cfg : Config, cfg.wf = true → (State.resetWith cfg).Inv) ∧ State.reset.Inv

/-- R46 ("preserved by every step"), R74, and the canonical form of the memory: every step keeps the
invariant, from every state that meets it. -/
def Obligations.EveryStepKeepsInvariant : Prop :=
  ∀ s t : State, s.Inv → step s = .next t → t.Inv

/-- R249 ("No error stops the block"), R104, R67, R74: from every state that meets the invariant a step
answers a next state: no fault, no refusal, whatever the inputs. -/
def Obligations.NoStepStops : Prop :=
  ∀ s : State, s.Inv → ∃ t, step s = .next t

/-- R5, R20: the parameters are fixed: no step changes them, from any state. -/
def Obligations.ConfigurationIsFixed : Prop :=
  ∀ s t : State, step s = .next t → t.cfg = s.cfg

/-! ### Rules about the whole machine -/

/-- R30, R257: RESETTING is entered only by `HARD_RESET` and by `CMD.LINK_RESET`. -/
def Obligations.ResettingIsEnteredOnlyByReset : Prop :=
  ∀ s t : State, step s = .next t → s.resetState = .none → t.resetState = .resetting →
    ∃ rest, s.inputs = .hardReset :: rest ∨
      ∃ v : Word, v.getLsbD 0 = true ∧ s.inputs = .csrWrite 0 v :: rest

/-- R30, R257: RESETTING is left only by a byte that makes the block accept a RESET, or a RESET_ACK, and
the event says so. -/
def Obligations.ResettingIsLeftOnlyByControlPacket : Prop :=
  ∀ s t : State, step s = .next t → s.resetState = .resetting → t.resetState = .none →
    (∃ e ∈ t.events, e.disp = .reset ∨ e.disp = .resetAck) ∧
    ∃ b rest, s.inputs = .rxByte b :: rest

/-- R46 items 6 and 7: over one input, `HDR` changes only in a HEADER step or at `HARD_RESET`; `LOC`
changes only in a footer-completion step, at `LINK_RESET` and at `HARD_RESET`. -/
def Obligations.WritersOfHdrAndLoc : Prop :=
  ∀ (s t : State) (i : Input) (rest : List Input),
    s.inputs = i :: rest → step s = .next t →
    (t.hdr ≠ s.hdr → i = .hardReset ∨ s.phase = .header ∧ ∃ b, i = .rxByte b) ∧
    (t.loc ≠ s.loc → i = .hardReset ∨ (∃ v : Word, v.getLsbD 0 = true ∧ i = .csrWrite 0 v) ∨
      s.phase = .footer ∧ s.offs = 3 ∧ ∃ b, i = .rxByte b)

/-- R31, R228, R258: the link side has no way to perform a host operation: bytes never change
`MAX_PAYLOAD`; only a write to `RX_CFG` and `HARD_RESET` do. -/
def Obligations.OnlyTheHostSetsMaxPayload : Prop :=
  ∀ s t : State, step s = .next t → t.maxPayload ≠ s.maxPayload →
    ∃ rest, s.inputs = .hardReset :: rest ∨ ∃ v : Word, s.inputs = .csrWrite 1 v :: rest

/-- R9: the inputs are exactly the four, and the response of a step, from any state, whatever the input,
is a new state and a list of at most one event; the input, if there is one, is consumed, and a 32-bit
value is returned exactly for `CSR_READ`. -/
def Obligations.ResponseOfAStep : Prop :=
  (∀ i : Input, (∃ b : Byte, i = .rxByte b) ∨ i = .hardReset ∨ (∃ n, ∃ v : Word, i = .csrWrite n v) ∨
    ∃ n, i = .csrRead n) ∧
  ∀ s t : State, step s = .next t →
    t.events.length ≤ 1 ∧ t.inputs = s.inputs.tail ∧
    (t.readData.isSome = true ↔ ∃ n rest, s.inputs = .csrRead n :: rest)

/-- R43, R254: over one input at most one event is emitted, and one is emitted exactly by the steps
that end a packet attempt through a header-stage error or a footer completion. -/
def Obligations.OneEventPerPacketAttempt : Prop :=
  ∀ (s t : State) (i : Input) (rest : List Input),
    s.inputs = i :: rest → step s = .next t →
    t.events.length ≤ 1 ∧
    (t.events ≠ [] ↔ ∃ b, i = .rxByte b ∧
      (s.phase = .footer ∧ s.offs = 3 ∨
        s.phase = .header ∧ s.offs = 7 ∧
          (s.header.length.toNat > s.maxPayload.toNat ∨
            s.loc.toNat + s.header.length.toNat > s.cfg.dgramBufSize)))

/-- R249, R29: no error or drop changes `EXPECTED_SEQ`, `RX_ACK_SEQ`, `PEER_ERR`, `LOC`,
`RESET_STATE`, `MAX_PAYLOAD` or a byte of `BUF`; `LOCAL_ERR` is the wire code of the disposition; the
next byte is taken in `(PREAMBLE, 0)`. -/
def Obligations.RejectionAdvancesNothing : Prop :=
  ∀ (s t : State) (b : Byte) (rest : List Input) (e : Event),
    s.inputs = .rxByte b :: rest → step s = .next t → e ∈ t.events → e.disp.isAccept = false →
    t.expectedSeq = s.expectedSeq ∧ t.rxAckSeq = s.rxAckSeq ∧ t.peerErr = s.peerErr ∧
    t.loc = s.loc ∧ t.resetState = s.resetState ∧ t.maxPayload = s.maxPayload ∧ t.buf = s.buf ∧
    t.localErr = e.disp.wire ∧ t.phase = .preamble ∧ t.offs = 0

/-- R69: the accepted fragments `BUF[0..LOC)` are never overwritten: whatever the input but
`HARD_RESET`, they read as before. -/
def Obligations.AcceptedFragmentsAreKept : Prop :=
  ∀ (s t : State) (i : Input) (rest : List Input),
    s.inputs = i :: rest → i ≠ .hardReset → step s = .next t →
    ∀ a < s.loc.toNat, Memory.read t.buf a = Memory.read s.buf a

/-- R196: a data packet that was accepted is not accepted again: right after it, the same header is
class ORDER. -/
def Obligations.DuplicateIsOutOfOrder : Prop :=
  ∀ (s t : State) (h : Header), h.isData = true → s.resetState = .none →
    (exec (.pktDataFin h) s = .next t ∨ exec (.pktDataFrag h) s = .next t) →
    decode (t.ctx true) (.packet (packetWord h)) = .ok (.pktDataOrder h)

/-! ### Whole packets -/

/-- R110, R301(a): round trip: from the marker search, a packet of R109 whose length passes both header
checks is consumed exactly and ends in a footer completion whose one event carries the header fields
sent, for every value of every field; `HDR` and `FTR` hold what was sent, and the checksum verified. -/
def Obligations.PacketRoundTrip : Prop :=
  ∀ (s : State) (flags code ackSeq seq r0 r1 : Byte) (p : List Byte),
    s.Inv → s.phase = .preamble → p.length ≤ s.maxPayload.toNat →
    s.loc.toNat + p.length ≤ s.cfg.dgramBufSize →
    ∃ t e, exec (.burst (encodePacket s.cfg.checksum flags code ackSeq seq p r0 r1)) s = .next t ∧
      t.phase = .preamble ∧ t.offs = 0 ∧ t.events = s.events ++ [e] ∧
      e.flags = flags ∧ e.code = code ∧ e.ackSeq = ackSeq ∧ e.seq = seq ∧ e.length.toNat = p.length ∧
      t.hdr = (packetHeader flags code ackSeq seq r0 r1 p).toHdr ∧
      t.ftr.toList = footerBytes (checksum s.cfg.checksum
        ([0x68, 0x43] ++ (packetHeader flags code ackSeq seq r0 r1 p).bytes ++ p)) ∧
      e.disp ≠ .errChecksum

/-- R192, R195: a fragment in order, received whole: it is accepted, nothing is delivered, and the
datagram under reassembly is the bytes accepted before followed by its payload. -/
def Obligations.FragmentIsAppended : Prop :=
  ∀ (s : State) (flags code ackSeq r0 r1 : Byte) (p acc : List Byte),
    s.Inv → s.phase = .preamble → s.resetState = .none → memRead s 0 s.loc.toNat = .ok acc →
    1 ≤ p.length → p.length ≤ s.maxPayload.toNat → s.loc.toNat + p.length ≤ s.cfg.dgramBufSize →
    code.extractLsb' 4 4 = (0 : Nibble) → flags.getLsbD 0 = true →
    ∃ t e, exec (.burst (encodePacket s.cfg.checksum flags code ackSeq s.expectedSeq p r0 r1)) s
        = .next t ∧
      t.events = s.events ++ [e] ∧ e.disp = .acceptFragment ∧ e.data = [] ∧
      t.loc.toNat = s.loc.toNat + p.length ∧ memRead t 0 t.loc.toNat = .ok (acc ++ p) ∧
      t.expectedSeq = s.expectedSeq + 1 ∧ t.rxAckSeq = ackSeq

/-- R193, R195: a final packet in order, received whole: the datagram delivered is the bytes accepted
before followed by its payload, and the reassembly buffer is empty after it. -/
def Obligations.DatagramIsReassembled : Prop :=
  ∀ (s : State) (flags code ackSeq r0 r1 : Byte) (p acc : List Byte),
    s.Inv → s.phase = .preamble → s.resetState = .none → memRead s 0 s.loc.toNat = .ok acc →
    1 ≤ p.length → p.length ≤ s.maxPayload.toNat → s.loc.toNat + p.length ≤ s.cfg.dgramBufSize →
    code.extractLsb' 4 4 = (0 : Nibble) → flags.getLsbD 0 = false →
    ∃ t e, exec (.burst (encodePacket s.cfg.checksum flags code ackSeq s.expectedSeq p r0 r1)) s
        = .next t ∧
      t.events = s.events ++ [e] ∧ e.disp = .acceptDatagram ∧ e.data = acc ++ p ∧
      t.loc = 0 ∧ t.expectedSeq = s.expectedSeq + 1 ∧ t.rxAckSeq = ackSeq

/-! ### The checksum -/

/-- R138: the check values of the default `CHECKSUM`, and the footer of `ACK 00`. The default is the
spec's own choice "from general knowledge" (log entry 4). -/
def Obligations.CrcCheckValues : Prop :=
  checksum .crc32 [] = 0x00000000 ∧
  checksum .crc32 [0x31, 0x32, 0x33, 0x34, 0x35, 0x36, 0x37, 0x38, 0x39] = 0xCBF43926 ∧
  checksum .crc32 [0x68, 0x43] = 0x0328E37A ∧
  checksum .crc32 [0x68, 0x43, 0, 0, 0, 0, 0, 0, 0, 0] = 0xC6A51330 ∧
  encodePacket .crc32 0 0 0 0 [] 0 0 =
    [0x68, 0x43, 0, 0, 0, 0, 0, 0, 0, 0] ++ [0x30, 0x13, 0xA5, 0xC6]
end

