-- ==== Sys2Proof/Laws/Decode.lean ====
section
/-! SUPPORT. Laws of byte order, of the header views, and of the operation map. -/

namespace Sys2Proof

/-! ### Byte order -/

theorem le16_toNat (a b : Byte) : (le16 a b).toNat = a.toNat + 256 * b.toNat := by
  have := a.isLt
  have := b.isLt
  change ((BitVec.setWidth 16 a + 256 * BitVec.setWidth 16 b : BitVec 16)).toNat = _
  simp only [BitVec.toNat_add, BitVec.toNat_mul, BitVec.toNat_setWidth]
  simp
  omega

/-- The range of a sequence number (R98). -/
theorem seqNum_lt (q : SeqNum) : q.toNat < 256 := q.isLt

/-- The range of `LENGTH` (R99). -/
theorem length_lt (l : Length) : l.toNat < 65536 := l.isLt

theorem le32_toNat (a b c d : Byte) :
    (le32 a b c d).toNat = a.toNat + 2 ^ 8 * b.toNat + 2 ^ 16 * c.toNat + 2 ^ 24 * d.toNat := by
  have := a.isLt
  have := b.isLt
  have := c.isLt
  have := d.isLt
  simp only [le32, BitVec.toNat_add, BitVec.toNat_mul, BitVec.toNat_setWidth]
  simp
  omega

theorem halfByte_zero_toNat (h : Half) : (halfByte h 0).toNat = h.toNat % 256 := by
  simp [halfByte, BitVec.extractLsb'_toNat]

theorem halfByte_one_toNat (h : Half) : (halfByte h 1).toNat = h.toNat / 256 := by
  have := h.isLt
  simp [halfByte, BitVec.extractLsb'_toNat, Nat.shiftRight_eq_div_pow]
  omega

@[simp] theorem le16_halfByte (h : Half) : le16 (halfByte h 0) (halfByte h 1) = h := by
  apply BitVec.eq_of_toNat_eq
  rw [le16_toNat, halfByte_zero_toNat, halfByte_one_toNat]
  omega

@[simp] theorem halfByte_zero_le16 (a b : Byte) : halfByte (le16 a b) 0 = a := by
  have := a.isLt
  apply BitVec.eq_of_toNat_eq
  rw [halfByte_zero_toNat, le16_toNat]
  omega

@[simp] theorem halfByte_one_le16 (a b : Byte) : halfByte (le16 a b) 1 = b := by
  have := a.isLt
  apply BitVec.eq_of_toNat_eq
  rw [halfByte_one_toNat, le16_toNat]
  omega

/-- The footer bytes of a checksum assemble to that checksum. -/
theorem rxsum_footerBytes (c : Word) :
    rxsum #v[wordByte c 0, wordByte c 1, wordByte c 2, wordByte c 3] = c := by
  apply BitVec.eq_of_toNat_eq
  simp [rxsum, le32_toNat, wordByte, BitVec.extractLsb'_toNat, Nat.shiftRight_eq_div_pow]
  have := c.isLt
  omega

/-! ### Header views -/

/-- The views read back what the layout put in place. -/
@[simp] theorem headerOf_toHdr (h : Header) : headerOf h.toHdr = h := by
  simp [headerOf, Header.toHdr]

/-- The layout holds every byte of `HDR`. -/
@[simp] theorem toHdr_headerOf (v : Vector Byte hdrLen) : (headerOf v).toHdr = v := by
  obtain ⟨⟨l⟩, hl⟩ := v
  match l, hl with
  | [a, b, c, d, e, f, g, h], _ =>
    simp only [headerOf, Header.toHdr]
    apply Vector.toList_inj.1
    simp only [halfByte_zero_le16, halfByte_one_le16]
    rfl

/-- The header bytes one by one. -/
theorem Header.bytes_eq (h : Header) :
    h.bytes = [h.flags, h.code, h.ackSeq, h.seq, halfByte h.length 0, halfByte h.length 1,
      h.rsvd0, h.rsvd1] := rfl

/-- The packet word of the header held in the holding register. -/
theorem packetWord_headerOf (v : Vector Byte hdrLen) :
    packetWord (headerOf v) = preamble ++ v.toList := by
  simp [packetWord, Header.bytes]

/-- A marker and eight bytes are read as the views of the eight bytes. -/
theorem headerOfPacket_append (v : Vector Byte hdrLen) :
    headerOfPacket (preamble ++ v.toList) = .ok (headerOf v) := by
  obtain ⟨⟨l⟩, hl⟩ := v
  have e : (preamble ++ l).drop preLen = l := rfl
  have e' : (preamble ++ l).take preLen = preamble := rfl
  have hl' : l.length = hdrLen := hl
  simp [headerOfPacket, e, e', hl']

@[simp] theorem headerOfPacket_packetWord (h : Header) : headerOfPacket (packetWord h) = .ok h := by
  simp [packetWord, Header.bytes, headerOfPacket_append]

/-- A packet word that is read as a header is that header's word. -/
theorem packetWord_of_headerOfPacket {bs : List Byte} {h : Header}
    (e : headerOfPacket bs = .ok h) : packetWord h = bs := by
  unfold headerOfPacket at e
  split_ifs at e with hl hp
  cases e
  rw [packetWord_headerOf, ← hp]
  exact List.take_append_drop preLen bs

/-! ### What is selected -/

/-- The four ranges of the attribute nibble. -/
theorem attr_cases (h : Header) :
    h.attr = 0 ∨ h.attr = 1 ∨ h.attr = 2 ∨ 3 ≤ h.attr.toNat := by
  have e : h.attr.toNat = 0 ∨ h.attr.toNat = 1 ∨ h.attr.toNat = 2 ∨ 3 ≤ h.attr.toNat := by omega
  rcases e with e | e | e | e
  · exact .inl (BitVec.eq_of_toNat_eq e)
  · exact .inr (.inl (BitVec.eq_of_toNat_eq e))
  · exact .inr (.inr (.inl (BitVec.eq_of_toNat_eq e)))
  · exact .inr (.inr (.inr e))

/-- A position that R46 allows selects a byte operation for every byte. -/
theorem byteOp_of_posOk {s : Machine.State} (b : Byte) (hp : s.posOk) :
    ∃ op, byteOp s.phase s.offs s.header.length b = some op := by
  cases e : byteOp s.phase s.offs s.header.length b with
  | some op => exact ⟨op, rfl⟩
  | none =>
    exfalso
    unfold byteOp at e
    unfold Machine.State.posOk at hp
    have h2 : preLen = 2 := rfl
    have h8 : hdrLen = 8 := rfl
    have h4 : ftrLen = 4 := rfl
    cases hc : s.phase <;> rw [hc] at hp e <;> simp only [] at hp e <;> split_ifs at e <;> omega

/-- With a window of one (R5), the sequence numbers in the window that begins at `EXPECTED_SEQ`, modulo
256, are the one that equals it (R112, R294). -/
theorem eq_expected_iff_in_window (seq expected : SeqNum) :
    seq = expected ↔ (seq - expected).toNat < windowSize := by
  have h1 : windowSize = 1 := rfl
  have h2 : seqBits = 8 := rfl
  have := seq.isLt
  have := expected.isLt
  rw [h1, BitVec.toNat_sub, ← BitVec.toNat_inj]
  simp only [h2] at *
  omega

end Sys2Proof
end

