-- ==== Sys2Proof/Laws/State.lean ====
section
/-! SUPPORT. One lemma per field per state update, true by rfl, so that no proof unfolds a record
update. -/

namespace Sys2Proof.Machine

variable (s : State)

/-! ### setPos -/

@[simp] theorem setPos_cfg (p : Phase) (o : Half) : (s.setPos p o).cfg = s.cfg := rfl
@[simp] theorem setPos_phase (p : Phase) (o : Half) : (s.setPos p o).phase = p := rfl
@[simp] theorem setPos_offs (p : Phase) (o : Half) : (s.setPos p o).offs = o := rfl
@[simp] theorem setPos_hdr (p : Phase) (o : Half) : (s.setPos p o).hdr = s.hdr := rfl
@[simp] theorem setPos_ftr (p : Phase) (o : Half) : (s.setPos p o).ftr = s.ftr := rfl
@[simp] theorem setPos_loc (p : Phase) (o : Half) : (s.setPos p o).loc = s.loc := rfl
@[simp] theorem setPos_expectedSeq (p : Phase) (o : Half) : (s.setPos p o).expectedSeq = s.expectedSeq := rfl
@[simp] theorem setPos_rxAckSeq (p : Phase) (o : Half) : (s.setPos p o).rxAckSeq = s.rxAckSeq := rfl
@[simp] theorem setPos_peerErr (p : Phase) (o : Half) : (s.setPos p o).peerErr = s.peerErr := rfl
@[simp] theorem setPos_localErr (p : Phase) (o : Half) : (s.setPos p o).localErr = s.localErr := rfl
@[simp] theorem setPos_resetState (p : Phase) (o : Half) : (s.setPos p o).resetState = s.resetState := rfl
@[simp] theorem setPos_maxPayload (p : Phase) (o : Half) : (s.setPos p o).maxPayload = s.maxPayload := rfl
@[simp] theorem setPos_buf (p : Phase) (o : Half) : (s.setPos p o).buf = s.buf := rfl
@[simp] theorem setPos_inputs (p : Phase) (o : Half) : (s.setPos p o).inputs = s.inputs := rfl
@[simp] theorem setPos_events (p : Phase) (o : Half) : (s.setPos p o).events = s.events := rfl
@[simp] theorem setPos_readData (p : Phase) (o : Half) : (s.setPos p o).readData = s.readData := rfl

/-! ### setOffs -/

@[simp] theorem setOffs_cfg (o : Half) : (s.setOffs o).cfg = s.cfg := rfl
@[simp] theorem setOffs_phase (o : Half) : (s.setOffs o).phase = s.phase := rfl
@[simp] theorem setOffs_offs (o : Half) : (s.setOffs o).offs = o := rfl
@[simp] theorem setOffs_hdr (o : Half) : (s.setOffs o).hdr = s.hdr := rfl
@[simp] theorem setOffs_ftr (o : Half) : (s.setOffs o).ftr = s.ftr := rfl
@[simp] theorem setOffs_loc (o : Half) : (s.setOffs o).loc = s.loc := rfl
@[simp] theorem setOffs_expectedSeq (o : Half) : (s.setOffs o).expectedSeq = s.expectedSeq := rfl
@[simp] theorem setOffs_rxAckSeq (o : Half) : (s.setOffs o).rxAckSeq = s.rxAckSeq := rfl
@[simp] theorem setOffs_peerErr (o : Half) : (s.setOffs o).peerErr = s.peerErr := rfl
@[simp] theorem setOffs_localErr (o : Half) : (s.setOffs o).localErr = s.localErr := rfl
@[simp] theorem setOffs_resetState (o : Half) : (s.setOffs o).resetState = s.resetState := rfl
@[simp] theorem setOffs_maxPayload (o : Half) : (s.setOffs o).maxPayload = s.maxPayload := rfl
@[simp] theorem setOffs_buf (o : Half) : (s.setOffs o).buf = s.buf := rfl
@[simp] theorem setOffs_inputs (o : Half) : (s.setOffs o).inputs = s.inputs := rfl
@[simp] theorem setOffs_events (o : Half) : (s.setOffs o).events = s.events := rfl
@[simp] theorem setOffs_readData (o : Half) : (s.setOffs o).readData = s.readData := rfl

/-! ### emit -/

@[simp] theorem emit_cfg (d : Disp) (h : Header) (data : List Byte) : (emit d h data s).cfg = s.cfg := rfl
@[simp] theorem emit_phase (d : Disp) (h : Header) (data : List Byte) : (emit d h data s).phase = s.phase := rfl
@[simp] theorem emit_offs (d : Disp) (h : Header) (data : List Byte) : (emit d h data s).offs = s.offs := rfl
@[simp] theorem emit_hdr (d : Disp) (h : Header) (data : List Byte) : (emit d h data s).hdr = s.hdr := rfl
@[simp] theorem emit_ftr (d : Disp) (h : Header) (data : List Byte) : (emit d h data s).ftr = s.ftr := rfl
@[simp] theorem emit_loc (d : Disp) (h : Header) (data : List Byte) : (emit d h data s).loc = s.loc := rfl
@[simp] theorem emit_expectedSeq (d : Disp) (h : Header) (data : List Byte) : (emit d h data s).expectedSeq = s.expectedSeq := rfl
@[simp] theorem emit_rxAckSeq (d : Disp) (h : Header) (data : List Byte) : (emit d h data s).rxAckSeq = s.rxAckSeq := rfl
@[simp] theorem emit_peerErr (d : Disp) (h : Header) (data : List Byte) : (emit d h data s).peerErr = s.peerErr := rfl
@[simp] theorem emit_localErr (d : Disp) (h : Header) (data : List Byte) : (emit d h data s).localErr = s.localErr := rfl
@[simp] theorem emit_resetState (d : Disp) (h : Header) (data : List Byte) : (emit d h data s).resetState = s.resetState := rfl
@[simp] theorem emit_maxPayload (d : Disp) (h : Header) (data : List Byte) : (emit d h data s).maxPayload = s.maxPayload := rfl
@[simp] theorem emit_buf (d : Disp) (h : Header) (data : List Byte) : (emit d h data s).buf = s.buf := rfl
@[simp] theorem emit_inputs (d : Disp) (h : Header) (data : List Byte) : (emit d h data s).inputs = s.inputs := rfl
@[simp] theorem emit_events (d : Disp) (h : Header) (data : List Byte) : (emit d h data s).events = s.events ++ [eventOf d h data] := rfl
@[simp] theorem emit_readData (d : Disp) (h : Header) (data : List Byte) : (emit d h data s).readData = s.readData := rfl

/-! ### raiseErr -/

@[simp] theorem raiseErr_cfg (e : ErrCode) (h : Header) : (raiseErr e h s).cfg = s.cfg := rfl
@[simp] theorem raiseErr_phase (e : ErrCode) (h : Header) : (raiseErr e h s).phase = .preamble := rfl
@[simp] theorem raiseErr_offs (e : ErrCode) (h : Header) : (raiseErr e h s).offs = 0 := rfl
@[simp] theorem raiseErr_hdr (e : ErrCode) (h : Header) : (raiseErr e h s).hdr = s.hdr := rfl
@[simp] theorem raiseErr_ftr (e : ErrCode) (h : Header) : (raiseErr e h s).ftr = s.ftr := rfl
@[simp] theorem raiseErr_loc (e : ErrCode) (h : Header) : (raiseErr e h s).loc = s.loc := rfl
@[simp] theorem raiseErr_expectedSeq (e : ErrCode) (h : Header) : (raiseErr e h s).expectedSeq = s.expectedSeq := rfl
@[simp] theorem raiseErr_rxAckSeq (e : ErrCode) (h : Header) : (raiseErr e h s).rxAckSeq = s.rxAckSeq := rfl
@[simp] theorem raiseErr_peerErr (e : ErrCode) (h : Header) : (raiseErr e h s).peerErr = s.peerErr := rfl
@[simp] theorem raiseErr_localErr (e : ErrCode) (h : Header) : (raiseErr e h s).localErr = e.wire := rfl
@[simp] theorem raiseErr_resetState (e : ErrCode) (h : Header) : (raiseErr e h s).resetState = s.resetState := rfl
@[simp] theorem raiseErr_maxPayload (e : ErrCode) (h : Header) : (raiseErr e h s).maxPayload = s.maxPayload := rfl
@[simp] theorem raiseErr_buf (e : ErrCode) (h : Header) : (raiseErr e h s).buf = s.buf := rfl
@[simp] theorem raiseErr_inputs (e : ErrCode) (h : Header) : (raiseErr e h s).inputs = s.inputs := rfl
@[simp] theorem raiseErr_events (e : ErrCode) (h : Header) : (raiseErr e h s).events = s.events ++ [eventOf e.disp h []] := rfl
@[simp] theorem raiseErr_readData (e : ErrCode) (h : Header) : (raiseErr e h s).readData = s.readData := rfl

/-! ### dropPacket -/

@[simp] theorem dropPacket_cfg (d : Disp) (h : Header) : (dropPacket d h s).cfg = s.cfg := rfl
@[simp] theorem dropPacket_phase (d : Disp) (h : Header) : (dropPacket d h s).phase = s.phase := rfl
@[simp] theorem dropPacket_offs (d : Disp) (h : Header) : (dropPacket d h s).offs = s.offs := rfl
@[simp] theorem dropPacket_hdr (d : Disp) (h : Header) : (dropPacket d h s).hdr = s.hdr := rfl
@[simp] theorem dropPacket_ftr (d : Disp) (h : Header) : (dropPacket d h s).ftr = s.ftr := rfl
@[simp] theorem dropPacket_loc (d : Disp) (h : Header) : (dropPacket d h s).loc = s.loc := rfl
@[simp] theorem dropPacket_expectedSeq (d : Disp) (h : Header) : (dropPacket d h s).expectedSeq = s.expectedSeq := rfl
@[simp] theorem dropPacket_rxAckSeq (d : Disp) (h : Header) : (dropPacket d h s).rxAckSeq = s.rxAckSeq := rfl
@[simp] theorem dropPacket_peerErr (d : Disp) (h : Header) : (dropPacket d h s).peerErr = s.peerErr := rfl
@[simp] theorem dropPacket_localErr (d : Disp) (h : Header) : (dropPacket d h s).localErr = wireNone := rfl
@[simp] theorem dropPacket_resetState (d : Disp) (h : Header) : (dropPacket d h s).resetState = s.resetState := rfl
@[simp] theorem dropPacket_maxPayload (d : Disp) (h : Header) : (dropPacket d h s).maxPayload = s.maxPayload := rfl
@[simp] theorem dropPacket_buf (d : Disp) (h : Header) : (dropPacket d h s).buf = s.buf := rfl
@[simp] theorem dropPacket_inputs (d : Disp) (h : Header) : (dropPacket d h s).inputs = s.inputs := rfl
@[simp] theorem dropPacket_events (d : Disp) (h : Header) : (dropPacket d h s).events = s.events ++ [eventOf d h []] := rfl
@[simp] theorem dropPacket_readData (d : Disp) (h : Header) : (dropPacket d h s).readData = s.readData := rfl

/-! ### acceptData -/

@[simp] theorem acceptData_cfg (h : Header) : (acceptData h s).cfg = s.cfg := rfl
@[simp] theorem acceptData_phase (h : Header) : (acceptData h s).phase = s.phase := rfl
@[simp] theorem acceptData_offs (h : Header) : (acceptData h s).offs = s.offs := rfl
@[simp] theorem acceptData_hdr (h : Header) : (acceptData h s).hdr = s.hdr := rfl
@[simp] theorem acceptData_ftr (h : Header) : (acceptData h s).ftr = s.ftr := rfl
@[simp] theorem acceptData_loc (h : Header) : (acceptData h s).loc = s.loc := rfl
@[simp] theorem acceptData_expectedSeq (h : Header) : (acceptData h s).expectedSeq = h.seq + 1 := rfl
@[simp] theorem acceptData_rxAckSeq (h : Header) : (acceptData h s).rxAckSeq = h.ackSeq := rfl
@[simp] theorem acceptData_peerErr (h : Header) : (acceptData h s).peerErr = h.perr := rfl
@[simp] theorem acceptData_localErr (h : Header) : (acceptData h s).localErr = wireNone := rfl
@[simp] theorem acceptData_resetState (h : Header) : (acceptData h s).resetState = s.resetState := rfl
@[simp] theorem acceptData_maxPayload (h : Header) : (acceptData h s).maxPayload = s.maxPayload := rfl
@[simp] theorem acceptData_buf (h : Header) : (acceptData h s).buf = s.buf := rfl
@[simp] theorem acceptData_inputs (h : Header) : (acceptData h s).inputs = s.inputs := rfl
@[simp] theorem acceptData_events (h : Header) : (acceptData h s).events = s.events := rfl
@[simp] theorem acceptData_readData (h : Header) : (acceptData h s).readData = s.readData := rfl

/-! ### acceptControl -/

@[simp] theorem acceptControl_cfg (h : Header) : (acceptControl h s).cfg = s.cfg := rfl
@[simp] theorem acceptControl_phase (h : Header) : (acceptControl h s).phase = s.phase := rfl
@[simp] theorem acceptControl_offs (h : Header) : (acceptControl h s).offs = s.offs := rfl
@[simp] theorem acceptControl_hdr (h : Header) : (acceptControl h s).hdr = s.hdr := rfl
@[simp] theorem acceptControl_ftr (h : Header) : (acceptControl h s).ftr = s.ftr := rfl
@[simp] theorem acceptControl_loc (h : Header) : (acceptControl h s).loc = 0 := rfl
@[simp] theorem acceptControl_expectedSeq (h : Header) : (acceptControl h s).expectedSeq = 0 := rfl
@[simp] theorem acceptControl_rxAckSeq (h : Header) : (acceptControl h s).rxAckSeq = 0 := rfl
@[simp] theorem acceptControl_peerErr (h : Header) : (acceptControl h s).peerErr = h.perr := rfl
@[simp] theorem acceptControl_localErr (h : Header) : (acceptControl h s).localErr = wireNone := rfl
@[simp] theorem acceptControl_resetState (h : Header) : (acceptControl h s).resetState = .none := rfl
@[simp] theorem acceptControl_maxPayload (h : Header) : (acceptControl h s).maxPayload = s.maxPayload := rfl
@[simp] theorem acceptControl_buf (h : Header) : (acceptControl h s).buf = s.buf := rfl
@[simp] theorem acceptControl_inputs (h : Header) : (acceptControl h s).inputs = s.inputs := rfl
@[simp] theorem acceptControl_events (h : Header) : (acceptControl h s).events = s.events := rfl
@[simp] theorem acceptControl_readData (h : Header) : (acceptControl h s).readData = s.readData := rfl

/-! ### linkReset -/

@[simp] theorem linkReset_cfg : (linkReset s).cfg = s.cfg := rfl
@[simp] theorem linkReset_phase : (linkReset s).phase = .preamble := rfl
@[simp] theorem linkReset_offs : (linkReset s).offs = 0 := rfl
@[simp] theorem linkReset_hdr : (linkReset s).hdr = s.hdr := rfl
@[simp] theorem linkReset_ftr : (linkReset s).ftr = s.ftr := rfl
@[simp] theorem linkReset_loc : (linkReset s).loc = 0 := rfl
@[simp] theorem linkReset_expectedSeq : (linkReset s).expectedSeq = 0 := rfl
@[simp] theorem linkReset_rxAckSeq : (linkReset s).rxAckSeq = 0 := rfl
@[simp] theorem linkReset_peerErr : (linkReset s).peerErr = 0 := rfl
@[simp] theorem linkReset_localErr : (linkReset s).localErr = 0 := rfl
@[simp] theorem linkReset_resetState : (linkReset s).resetState = .resetting := rfl
@[simp] theorem linkReset_maxPayload : (linkReset s).maxPayload = s.maxPayload := rfl
@[simp] theorem linkReset_buf : (linkReset s).buf = s.buf := rfl
@[simp] theorem linkReset_inputs : (linkReset s).inputs = s.inputs := rfl
@[simp] theorem linkReset_events : (linkReset s).events = s.events := rfl
@[simp] theorem linkReset_readData : (linkReset s).readData = s.readData := rfl

/-! ### idle -/

@[simp] theorem idle_cfg : (idle s).cfg = s.cfg := rfl
@[simp] theorem idle_phase : (idle s).phase = s.phase := rfl
@[simp] theorem idle_offs : (idle s).offs = s.offs := rfl
@[simp] theorem idle_hdr : (idle s).hdr = s.hdr := rfl
@[simp] theorem idle_ftr : (idle s).ftr = s.ftr := rfl
@[simp] theorem idle_loc : (idle s).loc = s.loc := rfl
@[simp] theorem idle_expectedSeq : (idle s).expectedSeq = s.expectedSeq := rfl
@[simp] theorem idle_rxAckSeq : (idle s).rxAckSeq = s.rxAckSeq := rfl
@[simp] theorem idle_peerErr : (idle s).peerErr = s.peerErr := rfl
@[simp] theorem idle_localErr : (idle s).localErr = s.localErr := rfl
@[simp] theorem idle_resetState : (idle s).resetState = s.resetState := rfl
@[simp] theorem idle_maxPayload : (idle s).maxPayload = s.maxPayload := rfl
@[simp] theorem idle_buf : (idle s).buf = s.buf := rfl
@[simp] theorem idle_inputs : (idle s).inputs = s.inputs := rfl
@[simp] theorem idle_events : (idle s).events = [] := rfl
@[simp] theorem idle_readData : (idle s).readData = none := rfl

/-! ### placeInput -/

@[simp] theorem placeInput_cfg (i : Input) : (placeInput i s).cfg = s.cfg := rfl
@[simp] theorem placeInput_phase (i : Input) : (placeInput i s).phase = s.phase := rfl
@[simp] theorem placeInput_offs (i : Input) : (placeInput i s).offs = s.offs := rfl
@[simp] theorem placeInput_hdr (i : Input) : (placeInput i s).hdr = s.hdr := rfl
@[simp] theorem placeInput_ftr (i : Input) : (placeInput i s).ftr = s.ftr := rfl
@[simp] theorem placeInput_loc (i : Input) : (placeInput i s).loc = s.loc := rfl
@[simp] theorem placeInput_expectedSeq (i : Input) : (placeInput i s).expectedSeq = s.expectedSeq := rfl
@[simp] theorem placeInput_rxAckSeq (i : Input) : (placeInput i s).rxAckSeq = s.rxAckSeq := rfl
@[simp] theorem placeInput_peerErr (i : Input) : (placeInput i s).peerErr = s.peerErr := rfl
@[simp] theorem placeInput_localErr (i : Input) : (placeInput i s).localErr = s.localErr := rfl
@[simp] theorem placeInput_resetState (i : Input) : (placeInput i s).resetState = s.resetState := rfl
@[simp] theorem placeInput_maxPayload (i : Input) : (placeInput i s).maxPayload = s.maxPayload := rfl
@[simp] theorem placeInput_buf (i : Input) : (placeInput i s).buf = s.buf := rfl
@[simp] theorem placeInput_inputs (i : Input) : (placeInput i s).inputs = i :: s.inputs := rfl
@[simp] theorem placeInput_events (i : Input) : (placeInput i s).events = s.events := rfl
@[simp] theorem placeInput_readData (i : Input) : (placeInput i s).readData = s.readData := rfl

/-! ### reset -/

@[simp] theorem resetWith_cfg (cfg : Config) : (State.resetWith cfg).cfg = cfg := rfl
@[simp] theorem resetWith_phase (cfg : Config) : (State.resetWith cfg).phase = .preamble := rfl
@[simp] theorem resetWith_offs (cfg : Config) : (State.resetWith cfg).offs = 0 := rfl
@[simp] theorem resetWith_hdr (cfg : Config) : (State.resetWith cfg).hdr = #v[0, 0, 0, 0, 0, 0, 0, 0] := rfl
@[simp] theorem resetWith_ftr (cfg : Config) : (State.resetWith cfg).ftr = #v[0, 0, 0, 0] := rfl
@[simp] theorem resetWith_loc (cfg : Config) : (State.resetWith cfg).loc = 0 := rfl
@[simp] theorem resetWith_expectedSeq (cfg : Config) : (State.resetWith cfg).expectedSeq = 0 := rfl
@[simp] theorem resetWith_rxAckSeq (cfg : Config) : (State.resetWith cfg).rxAckSeq = 0 := rfl
@[simp] theorem resetWith_peerErr (cfg : Config) : (State.resetWith cfg).peerErr = 0 := rfl
@[simp] theorem resetWith_localErr (cfg : Config) : (State.resetWith cfg).localErr = 0 := rfl
@[simp] theorem resetWith_resetState (cfg : Config) : (State.resetWith cfg).resetState = .resetting := rfl
@[simp] theorem resetWith_maxPayload (cfg : Config) : (State.resetWith cfg).maxPayload = cfg.maxPayloadReset := rfl
@[simp] theorem resetWith_buf (cfg : Config) : (State.resetWith cfg).buf = [] := rfl
@[simp] theorem resetWith_inputs (cfg : Config) : (State.resetWith cfg).inputs = [] := rfl
@[simp] theorem resetWith_events (cfg : Config) : (State.resetWith cfg).events = [] := rfl
@[simp] theorem resetWith_readData (cfg : Config) : (State.resetWith cfg).readData = none := rfl

/-- The header view depends on `HDR` alone. -/
theorem header_congr {s t : State} (h : s.hdr = t.hdr) : s.header = t.header := by
  simp [State.header, h]

@[simp] theorem setPos_header (p : Phase) (o : Half) : (s.setPos p o).header = s.header := rfl
@[simp] theorem setOffs_header (o : Half) : (s.setOffs o).header = s.header := rfl
@[simp] theorem emit_header (d : Disp) (h : Header) (data : List Byte) :
    (emit d h data s).header = s.header := rfl
@[simp] theorem raiseErr_header (e : ErrCode) (h : Header) : (raiseErr e h s).header = s.header := rfl
@[simp] theorem dropPacket_header (d : Disp) (h : Header) : (dropPacket d h s).header = s.header := rfl
@[simp] theorem acceptData_header (h : Header) : (acceptData h s).header = s.header := rfl
@[simp] theorem acceptControl_header (h : Header) : (acceptControl h s).header = s.header := rfl
@[simp] theorem linkReset_header : (linkReset s).header = s.header := rfl
@[simp] theorem idle_header : (idle s).header = s.header := rfl

end Sys2Proof.Machine
end

