-- ==== Sys2Proof/Laws/Memory.lean ====
section
/-! SUPPORT. The laws of the reassembly buffer: a read after a write, the canonical form, and what
`MemRead` and `MemWrite` can answer. -/

namespace Sys2Proof.Machine

/-- A read at the address just written gives the byte written. -/
@[simp] theorem Memory.read_write_same (m : List Host.Cell) (a : Nat) (b : Byte) :
    Memory.read (Memory.write m a b) a = some b := by
  induction m with
  | nil => simp [Memory.write, Memory.read]
  | cons c rest ih =>
    obtain ⟨k, c⟩ := c
    simp only [Memory.write]
    split_ifs with h1 h2
    · simp [Memory.read]
    · simp [Memory.read]
    · rw [Memory.read, if_neg (Ne.symm h2), ih]

/-- A write leaves every other address alone. -/
theorem Memory.read_write_other (m : List Host.Cell) {a x : Nat} (b : Byte) (hx : x ≠ a) :
    Memory.read (Memory.write m a b) x = Memory.read m x := by
  induction m with
  | nil => simp [Memory.write, Memory.read, Ne.symm hx]
  | cons c rest ih =>
    obtain ⟨k, c⟩ := c
    simp only [Memory.write]
    split_ifs with h1 h2
    · rw [Memory.read, if_neg (Ne.symm hx)]
    · subst h2; simp [Memory.read, Ne.symm hx]
    · simp only [Memory.read, ih]

/-- Both cases at once. -/
theorem Memory.read_write (m : List Host.Cell) (a x : Nat) (b : Byte) :
    Memory.read (Memory.write m a b) x = if x = a then some b else Memory.read m x := by
  split_ifs with h
  · rw [h, Memory.read_write_same]
  · exact Memory.read_write_other m b h

/-- A cell after a write is the cell written or an old one. -/
theorem Memory.mem_write {m : List Host.Cell} {a : Nat} {b : Byte} {c : Host.Cell}
    (h : c ∈ Memory.write m a b) : c = (a, b) ∨ c ∈ m := by
  induction m with
  | nil => simpa [Memory.write] using h
  | cons d rest ih =>
    obtain ⟨k, d⟩ := d
    simp only [Memory.write] at h
    split_ifs at h with h1 h2
    · simpa using h
    · rcases List.mem_cons.1 h with h | h
      · exact .inl h
      · exact .inr (List.mem_cons_of_mem _ h)
    · rcases List.mem_cons.1 h with h | h
      · exact .inr (h ▸ List.mem_cons_self ..)
      · exact (ih h).imp id (List.mem_cons_of_mem _)

/-- A write keeps the canonical form. -/
theorem Memory.write_wf {m : List Host.Cell} (a : Nat) (b : Byte) (h : Memory.wf m) :
    Memory.wf (Memory.write m a b) := by
  induction m with
  | nil => simp [Memory.write, Memory.wf]
  | cons d rest ih =>
    obtain ⟨k, d⟩ := d
    obtain ⟨hk, hr⟩ := List.pairwise_cons.1 h
    simp only [Memory.write]
    split_ifs with h1 h2
    · refine List.pairwise_cons.2 ⟨fun c hc => ?_, h⟩
      rcases List.mem_cons.1 hc with rfl | hc
      · exact h1
      · exact Nat.lt_trans h1 (hk c hc)
    · subst h2; exact List.pairwise_cons.2 ⟨hk, hr⟩
    · refine List.pairwise_cons.2 ⟨fun c hc => ?_, ih hr⟩
      rcases Memory.mem_write hc with rfl | hc
      · show k < a; omega
      · exact hk c hc

/-- The memory after reset has the canonical form. -/
theorem Memory.reset_wf (cfg : Config) : Memory.wf (State.resetWith cfg).buf := List.Pairwise.nil

/-- What a one-byte read answers. -/
theorem readBuf_ok {s : State} {a : Nat} {b : Byte} :
    readBuf s a = .ok b ↔ a < s.cfg.dgramBufSize ∧ Memory.read s.buf a = some b := by
  unfold readBuf
  split_ifs with h
  · cases hr : Memory.read s.buf a <;> simp [h]
  · simp [h]

/-- What a store answers: exactly the addresses of R60 exist. -/
theorem memWrite_ok {s t : State} {a : Nat} {b : Byte} :
    memWrite s a b = .ok t ↔
      a < s.cfg.dgramBufSize ∧ t = { s with buf := Memory.write s.buf a b } := by
  unfold memWrite
  split_ifs with h
  · simp [h, eq_comm]
  · simp [h]

@[simp] theorem memRead_zero (s : State) (a : Nat) : memRead s a 0 = .ok [] := rfl

/-- One byte and the rest. -/
theorem memRead_succ_ok {s : State} {a n : Nat} {bs : List Byte} :
    memRead s a (n + 1) = .ok bs ↔
      ∃ b rest, readBuf s a = .ok b ∧ memRead s (a + 1) n = .ok rest ∧ bs = b :: rest := by
  simp only [memRead]
  cases hb : readBuf s a with
  | error f => simp
  | ok b => cases hr : memRead s (a + 1) n <;> simp [eq_comm]

/-- `MemRead(a, n)` has `n` bytes. -/
theorem memRead_length {s : State} {a n : Nat} {bs : List Byte} (h : memRead s a n = .ok bs) :
    bs.length = n := by
  induction n generalizing a bs with
  | zero => simp_all [memRead, eq_comm]
  | succ n ih =>
    obtain ⟨b, rest, -, hr, rfl⟩ := memRead_succ_ok.1 h
    simp [ih hr]

/-- A read succeeds where every byte is inside the buffer and has been written. -/
theorem memRead_of_written {s : State} {a n : Nat}
    (h : ∀ i < n, a + i < s.cfg.dgramBufSize ∧ (Memory.read s.buf (a + i)).isSome = true) :
    ∃ bs, memRead s a n = .ok bs := by
  induction n generalizing a with
  | zero => exact ⟨[], rfl⟩
  | succ n ih =>
    obtain ⟨h0, hs⟩ := h 0 (Nat.succ_pos n)
    obtain ⟨b, hb⟩ := Option.isSome_iff_exists.1 hs
    obtain ⟨rest, hr⟩ := ih (a := a + 1) fun i hi => by
      have := h (i + 1) (by omega)
      rwa [show a + (i + 1) = a + 1 + i by omega] at this
    exact ⟨b :: rest, memRead_succ_ok.2 ⟨b, rest, readBuf_ok.2 ⟨h0, hb⟩, hr, rfl⟩⟩

/-- A read depends on the buffer's size and content alone. -/
theorem memRead_congr {s t : State} (hc : s.cfg.dgramBufSize = t.cfg.dgramBufSize) {a n : Nat}
    (hb : ∀ i < n, Memory.read s.buf (a + i) = Memory.read t.buf (a + i)) :
    memRead s a n = memRead t a n := by
  induction n generalizing a with
  | zero => rfl
  | succ n ih =>
    have h0 : readBuf s a = readBuf t a := by
      have := hb 0 (Nat.succ_pos n)
      simp only [Nat.add_zero] at this
      simp only [readBuf, hc, this]
    have h1 : memRead s (a + 1) n = memRead t (a + 1) n := ih fun i hi => by
      have := hb (i + 1) (by omega)
      rwa [show a + (i + 1) = a + 1 + i by omega] at this
    simp only [memRead, h0, h1]

/-- Two adjacent reads are one. -/
theorem memRead_add {s : State} {a m n : Nat} {xs ys : List Byte}
    (hx : memRead s a m = .ok xs) (hy : memRead s (a + m) n = .ok ys) :
    memRead s a (m + n) = .ok (xs ++ ys) := by
  induction m generalizing a xs with
  | zero => simp_all [memRead]
  | succ m ih =>
    obtain ⟨b, rest, hb, hr, rfl⟩ := memRead_succ_ok.1 hx
    have := ih hr (by rwa [show a + 1 + m = a + (m + 1) by omega])
    rw [show m + 1 + n = m + n + 1 by omega]
    exact memRead_succ_ok.2 ⟨b, rest ++ ys, hb, this, rfl⟩

/-- Placing zeros keeps the canonical form. -/
theorem placeZeros_wf (n : Nat) {m : List Host.Cell} (a : Nat) (h : Memory.wf m) :
    Memory.wf (placeZeros m a n) := by
  induction n generalizing m a with
  | zero => exact h
  | succ n ih => exact ih (a + 1) (Memory.write_wf a 0 h)

end Sys2Proof.Machine
end

