-- ==== Sys2Proof/Laws/Ops.lean ====
section
/-! SUPPORT. One lemma per shared operation that says what it can answer; later proofs cite it instead
of unfolding the operation. -/

namespace Sys2Proof.Machine

/-! ### Registers -/

/-- Continuing answers next exactly where the value exists and the continuation answers next. -/
theorem whenOk_next {α : Type} {r : Except Fault α} {k : α → Result} {t : State} :
    whenOk r k = .next t ↔ ∃ a, r = .ok a ∧ k a = .next t := by
  cases r <;> simp [whenOk]

@[simp] theorem whenOk_ok {α : Type} (a : α) (k : α → Result) : whenOk (.ok a) k = k a := rfl
@[simp] theorem whenOk_error {α : Type} (f : Fault) (k : α → Result) :
    whenOk (.error f) k = .fault f := rfl

theorem setHdr_of_lt {s : State} {i : Nat} (b : Byte) (h : i < hdrLen) :
    s.setHdr i b = .ok { s with hdr := s.hdr.setIfInBounds i b } := by
  simp [State.setHdr, h, Vector.setIfInBounds, Vector.set, Array.setIfInBounds]

theorem setFtr_of_lt {s : State} {i : Nat} (b : Byte) (h : i < ftrLen) :
    s.setFtr i b = .ok { s with ftr := s.ftr.setIfInBounds i b } := by
  simp [State.setFtr, h, Vector.setIfInBounds, Vector.set, Array.setIfInBounds]

/-- What a write of `HDR[i]` answers. -/
theorem setHdr_ok {s t : State} {i : Nat} {b : Byte} :
    s.setHdr i b = .ok t ↔ i < hdrLen ∧ t = { s with hdr := s.hdr.setIfInBounds i b } := by
  by_cases h : i < hdrLen
  · simp [setHdr_of_lt b h, h, eq_comm]
  · simp [State.setHdr, h]

/-- What a write of `FTR[i]` answers. -/
theorem setFtr_ok {s t : State} {i : Nat} {b : Byte} :
    s.setFtr i b = .ok t ↔ i < ftrLen ∧ t = { s with ftr := s.ftr.setIfInBounds i b } := by
  by_cases h : i < ftrLen
  · simp [setFtr_of_lt b h, h, eq_comm]
  · simp [State.setFtr, h]

/-- The eighth header byte is no part of `LENGTH`. -/
theorem header_length_set7 (hdr : Vector Byte hdrLen) (b : Byte) :
    (headerOf (hdr.setIfInBounds 7 b)).length = (headerOf hdr).length := by
  simp [headerOf]

/-! ### Checksum -/

/-- What `VERIFY` answers. -/
theorem verify_ok {s : State} {v : Bool} :
    verify s = .ok v ↔ ∃ payload, memRead s s.loc.toNat s.header.length.toNat = .ok payload ∧
      v = (rxsum s.ftr == checksum s.cfg.checksum (covered s.hdr.toList payload)) := by
  unfold verify
  cases memRead s s.loc.toNat s.header.length.toNat <;> simp [eq_comm]

/-! ### Header completion -/

/-- Header completion always completes, in one of the four ways of R157. -/
theorem headerComplete_cases (s : State) :
    (s.maxPayload.toNat < s.header.length.toNat ∧
      headerComplete s = .next (raiseErr .header s.header s)) ∨
    (s.header.length.toNat ≤ s.maxPayload.toNat ∧
      s.cfg.dgramBufSize < s.loc.toNat + s.header.length.toNat ∧
      headerComplete s = .next (raiseErr .oom s.header s)) ∨
    (s.header.length.toNat ≤ s.maxPayload.toNat ∧
      s.loc.toNat + s.header.length.toNat ≤ s.cfg.dgramBufSize ∧ s.header.length.toNat = 0 ∧
      headerComplete s = .next (s.setPos .footer 0)) ∨
    (s.header.length.toNat ≤ s.maxPayload.toNat ∧
      s.loc.toNat + s.header.length.toNat ≤ s.cfg.dgramBufSize ∧ 1 ≤ s.header.length.toNat ∧
      headerComplete s = .next (s.setPos .payload 0)) := by
  unfold headerComplete hdrEnd
  split_ifs with h1 h2 h3
  · exact .inl ⟨h1, rfl⟩
  · exact .inr (.inl ⟨by omega, h2, rfl⟩)
  · exact .inr (.inr (.inl ⟨by omega, by omega, h3, rfl⟩))
  · exact .inr (.inr (.inr ⟨by omega, by omega, by omega, rfl⟩))

/-! ### Packet classes -/

/-- What a class rule can do when it answers next: one event, `LOCAL_ERR` the wire code of its
disposition, `HDR`, `FTR`, `MAX_PAYLOAD`, `BUF` and the model's other fields as before; the position
as before or `(PREAMBLE, 0)`; a disposition that is no accept leaves the sequence registers, `LOC`
and the mode as before. -/
theorem pktStep_next {c : PktClass} {h : Header} {s t : State} (e : pktStep c h s = .next t) :
    ∃ d data, t.events = s.events ++ [eventOf d h data] ∧ t.localErr = d.wire ∧
      t.cfg = s.cfg ∧ t.hdr = s.hdr ∧ t.ftr = s.ftr ∧ t.maxPayload = s.maxPayload ∧
      t.buf = s.buf ∧ t.inputs = s.inputs ∧ t.readData = s.readData ∧
      ((t.phase = s.phase ∧ t.offs = s.offs) ∨ (t.phase = .preamble ∧ t.offs = 0)) ∧
      (d.isAccept = false → t.expectedSeq = s.expectedSeq ∧ t.rxAckSeq = s.rxAckSeq ∧
        t.peerErr = s.peerErr ∧ t.loc = s.loc ∧ t.resetState = s.resetState) ∧
      (t.resetState = s.resetState ∨ (t.resetState = .none ∧ (d = .reset ∨ d = .resetAck))) ∧
      (t.loc = s.loc ∨ t.loc = 0 ∨ t.loc = locPlus s h.length) ∧
      (d = .errChecksum ↔ c = .badsum) := by
  cases c <;>
    simp only [pktStep, execPktBadsum, execPktReset, execPktResetAck, execPktResetAckStray,
      execPktCtrlUnfin, execPktAttrRsvd, execPktAck, execPktAckUnfin, execPktDataResetting,
      execPktDataOrder, execPktDataFrag, execPktDataFin, whenOk_next,
      Host.Outcome.next.injEq] at e
  case badsum => subst e; exact ⟨.errChecksum, [], by simp [raiseErr, emit, ErrCode.disp, ErrCode.wire, Disp.wire, Disp.isAccept]⟩
  case reset =>
    obtain ⟨data, -, e⟩ := e
    cases e; exact ⟨.reset, data, by simp [Disp.wire, Disp.isAccept]⟩
  case resetAck =>
    obtain ⟨data, -, e⟩ := e
    cases e; exact ⟨.resetAck, data, by simp [Disp.wire, Disp.isAccept]⟩
  case resetAckStray => subst e; exact ⟨.dropProto, [], by simp [Disp.wire, Disp.isAccept]⟩
  case ctrlUnfin => subst e; exact ⟨.dropProto, [], by simp [Disp.wire, Disp.isAccept]⟩
  case attrRsvd => subst e; exact ⟨.dropProto, [], by simp [Disp.wire, Disp.isAccept]⟩
  case ack => subst e; exact ⟨.ackOnly, [], by simp [Disp.wire, Disp.isAccept]⟩
  case ackUnfin => subst e; exact ⟨.dropProto, [], by simp [Disp.wire, Disp.isAccept]⟩
  case dataResetting => subst e; exact ⟨.dropResetting, [], by simp [Disp.wire, Disp.isAccept]⟩
  case dataOrder => subst e; exact ⟨.errOrder, [], by simp [ErrCode.disp, ErrCode.wire, Disp.wire, Disp.isAccept]⟩
  case dataFrag => subst e; exact ⟨.acceptFragment, [], by simp [Disp.wire, Disp.isAccept]⟩
  case dataFin =>
    obtain ⟨data, -, e⟩ := e
    cases e; exact ⟨.acceptDatagram, data, by simp [Disp.wire, Disp.isAccept]⟩

/-- The reads a class rule makes are the only way it can stop. -/
theorem pktStep_completes {c : PktClass} {h : Header} {s : State}
    (h1 : ∃ d, memRead s s.loc.toNat h.length.toNat = .ok d)
    (h2 : ∃ d, memRead s 0 (s.loc.toNat + h.length.toNat) = .ok d) :
    ∃ t, pktStep c h s = .next t := by
  obtain ⟨d1, h1⟩ := h1
  obtain ⟨d2, h2⟩ := h2
  cases c <;>
    simp [pktStep, execPktBadsum, execPktReset, execPktResetAck, execPktResetAckStray,
      execPktCtrlUnfin, execPktAttrRsvd, execPktAck, execPktAckUnfin, execPktDataResetting,
      execPktDataOrder, execPktDataFrag, execPktDataFin, h1, h2]

/-- What the verdict answers: `VERIFY` and the class rule. -/
theorem judge_next {s t : State} :
    judge s = .next t ↔ ∃ v, verify s = .ok v ∧
      pktStep (pktClass v s.header s.resetState s.expectedSeq) s.header s = .next t := whenOk_next

/-- What `RX.FTR.LAST` answers. -/
theorem execRxFtrLast_eq (b : Byte) (s : State) :
    execRxFtrLast b s =
      judge { s with ftr := s.ftr.setIfInBounds 3 b, phase := .preamble, offs := 0 } := by
  simp only [execRxFtrLast, setFtr_of_lt b (show ftrLen - 1 < ftrLen by decide), whenOk_ok]
  rfl

/-- What `RX.HDR.LAST` answers. -/
theorem execRxHdrLast_eq (b : Byte) (s : State) :
    execRxHdrLast b s = headerComplete { s with hdr := s.hdr.setIfInBounds 7 b } := by
  simp only [execRxHdrLast, setHdr_of_lt b (show hdrLen - 1 < hdrLen by decide), whenOk_ok]
  rfl

/-! ### Bytes and bursts -/

/-- What `RXBYTE(b)` answers: a byte operation, where one is selected. -/
theorem rxByte_next {b : Byte} {s t : State} :
    rxByte b s = .next t ↔
      ∃ op, byteOp s.phase s.offs s.header.length b = some op ∧ byteStep op b s = .next t := by
  unfold rxByte
  cases byteOp s.phase s.offs s.header.length b <;> simp

/-- What a received byte can do (R150), by the phase it is taken in. -/
theorem rxByte_cases {b : Byte} {s t : State} (h : rxByte b s = .next t) :
    (s.phase = .preamble ∧ s.offs.toNat ≤ 1 ∧
      ∃ p o, t = s.setPos p o ∧ ((p = .preamble ∧ o.toNat ≤ 1) ∨ (p = .header ∧ o = 0))) ∨
    (s.phase = .header ∧ s.offs.toNat ≤ 6 ∧
      t = { s with hdr := s.hdr.setIfInBounds s.offs.toNat b, offs := s.offs + 1 }) ∨
    (s.phase = .header ∧ s.offs.toNat = 7 ∧
      headerComplete { s with hdr := s.hdr.setIfInBounds 7 b } = .next t) ∨
    (s.phase = .payload ∧ s.offs.toNat + 1 < s.header.length.toNat ∧
      s.loc.toNat + s.offs.toNat < s.cfg.dgramBufSize ∧
      t = { s with buf := Memory.write s.buf (s.loc.toNat + s.offs.toNat) b, offs := s.offs + 1 }) ∨
    (s.phase = .payload ∧ s.offs.toNat + 1 = s.header.length.toNat ∧
      s.loc.toNat + s.offs.toNat < s.cfg.dgramBufSize ∧
      t = { s with
        buf := Memory.write s.buf (s.loc.toNat + s.offs.toNat) b, phase := .footer, offs := 0 }) ∨
    (s.phase = .footer ∧ s.offs.toNat ≤ 2 ∧
      t = { s with ftr := s.ftr.setIfInBounds s.offs.toNat b, offs := s.offs + 1 }) ∨
    (s.phase = .footer ∧ s.offs.toNat = 3 ∧
      judge { s with ftr := s.ftr.setIfInBounds 3 b, phase := .preamble, offs := 0 } = .next t) := by
  have h2 : preLen = 2 := rfl
  have h8 : hdrLen = 8 := rfl
  have h4 : ftrLen = 4 := rfl
  obtain ⟨op, hop, hs⟩ := rxByte_next.1 h
  unfold byteOp at hop
  cases hp : s.phase with
  | preamble =>
    simp only [hp] at hop
    split_ifs at hop <;> cases hop
    · cases hs; exact .inl ⟨rfl, by omega, .preamble, 1, by rw [← hp]; rfl, .inl ⟨rfl, by decide⟩⟩
    · cases hs; exact .inl ⟨rfl, by omega, .preamble, s.offs, by rw [← hp]; rfl, .inl ⟨rfl, by omega⟩⟩
    · cases hs; exact .inl ⟨rfl, by omega, .header, 0, rfl, .inr ⟨rfl, rfl⟩⟩
    · cases hs; exact .inl ⟨rfl, by omega, .preamble, 1, by rw [← hp]; rfl, .inl ⟨rfl, by decide⟩⟩
    · cases hs; exact .inl ⟨rfl, by omega, .preamble, 0, by rw [← hp]; rfl, .inl ⟨rfl, by decide⟩⟩
  | header =>
    simp only [hp] at hop
    split_ifs at hop <;> cases hop
    · simp only [byteStep, execRxHdr, setHdr_of_lt b (show s.offs.toNat < hdrLen by omega), whenOk_ok] at hs
      cases hs; exact .inr (.inl ⟨rfl, by omega, by rw [← hp]; rfl⟩)
    · exact .inr (.inr (.inl ⟨rfl, by omega, by rw [← hp, ← hs]; exact (execRxHdrLast_eq b s).symm⟩))
  | payload =>
    simp only [hp] at hop
    split_ifs at hop <;> cases hop
    · obtain ⟨u, hu, e⟩ := whenOk_next.1 hs
      obtain ⟨hlt, rfl⟩ := memWrite_ok.1 hu
      cases e; exact .inr (.inr (.inr (.inl ⟨rfl, by omega, hlt, by rw [← hp]; rfl⟩)))
    · obtain ⟨u, hu, e⟩ := whenOk_next.1 hs
      obtain ⟨hlt, rfl⟩ := memWrite_ok.1 hu
      cases e; exact .inr (.inr (.inr (.inr (.inl ⟨rfl, by omega, hlt, rfl⟩))))
  | footer =>
    simp only [hp] at hop
    split_ifs at hop <;> cases hop
    · simp only [byteStep, execRxFtr, setFtr_of_lt b (show s.offs.toNat < ftrLen by omega), whenOk_ok] at hs
      cases hs; exact .inr (.inr (.inr (.inr (.inr (.inl ⟨rfl, by omega, by rw [← hp]; rfl⟩)))))
    · exact .inr (.inr (.inr (.inr (.inr (.inr ⟨rfl, by omega, by rw [← hs]; exact (execRxFtrLast_eq b s).symm⟩)))))

/-- What a burst of one byte and more answers. -/
theorem execBurst_cons_next {b : Byte} {bs : List Byte} {s t : State} :
    execBurst (b :: bs) s = .next t ↔ ∃ u, rxByte b s = .next u ∧ execBurst bs u = .next t := by
  simp only [execBurst]
  cases rxByte b s <;> simp

/-! ### Steps -/

/-- What a step can do: be idle, or take the oldest input and perform what it decodes to. -/
theorem step_cases {s t : State} (h : step s = .next t) :
    (s.inputs = [] ∧ t = idle s) ∨
    ∃ i rest ins, s.inputs = i :: rest ∧ decode (s.ctx false) (.input i) = .ok ins ∧
      exec ins { s with inputs := rest, events := [], readData := none } = .next t := by
  unfold step fetch at h
  cases hi : s.inputs with
  | nil => rw [hi] at h; exact .inl ⟨rfl, by simpa [eq_comm] using h⟩
  | cons i rest =>
    rw [hi] at h
    refine .inr ⟨i, rest, ?_⟩
    change (match decode (s.ctx false) (.input i) with
      | .ok ins => exec ins { s with inputs := rest, events := [], readData := none }
      | .error _ => .refused .noOperation) = .next t at h
    cases hd : decode (s.ctx false) (.input i) with
    | error r => rw [hd] at h; simp at h
    | ok ins => rw [hd] at h; exact ⟨ins, rfl, rfl, h⟩

end Sys2Proof.Machine
end

