-- ==== Sys2Proof/Laws/Steps.lean ====
section
/-! SUPPORT. What one input can do: a step is the meaning of its input, and the whole frame of a
received byte, of a burst and of a register write. -/

namespace Sys2Proof.Machine

/-- A step with an input pending is that input's meaning, the input consumed and the pulses gone. -/
theorem step_of_input {s : State} {i : Input} {rest : List Input} (hi : s.inputs = i :: rest) :
  step s = (match i with
    | .rxByte b => rxByte b { s with inputs := rest, events := [], readData := none }
    | .hardReset => execHardReset { s with inputs := rest, events := [], readData := none }
    | .csrWrite n v => exec (csrWriteInstr n v) { s with inputs := rest, events := [], readData := none }
    | .csrRead n => execCsrRead n { s with inputs := rest, events := [], readData := none }) := by
  simp only [step, fetch, hi]
  cases i with
  | rxByte b =>
    simp only [decode, rxByte, State.ctx]
    cases h : byteOp (State.phase { s with inputs := rest, events := [], readData := none }) (State.offs { s with inputs := rest, events := [], readData := none }) (State.header { s with inputs := rest, events := [], readData := none }).length b with
    | none => rfl
    | some op => cases op <;> rfl
  | hardReset => rfl
  | csrWrite n v => rfl
  | csrRead n => rfl

/-- A register write always completes, in one of four ways (R221 to R226). -/
theorem exec_csrWriteInstr {n : Nat} {v : Word} {s : State} : ∃ t, exec (csrWriteInstr n v) s = .next t ∧
   ((n = 0 ∧ v.getLsbD 0 = true ∧ t = linkReset s) ∨ (n = 0 ∧ t = s.setPos .preamble 0) ∨ t = s ∨ (n = 1 ∧ t = {s with maxPayload := v.extractLsb' 0 16})) := by
  unfold csrWriteInstr
  split_ifs with h1 h2 h3 h4
  · exact ⟨_, rfl, .inl ⟨h1, h2, rfl⟩⟩
  · exact ⟨_, rfl, .inr (.inl ⟨h1, rfl⟩)⟩
  · exact ⟨_, rfl, .inr (.inr (.inl rfl))⟩
  · exact ⟨_, rfl, .inr (.inr (.inr ⟨h4, rfl⟩))⟩
  · exact ⟨_, rfl, .inr (.inr (.inl rfl))⟩

/-- The footer-completion byte completes where the bytes of R68 are readable. -/
theorem execRxFtrLast_completes (s : State) (b : Byte) (hr : ∀ a < s.loc.toNat + s.header.length.toNat,
      a < s.cfg.dgramBufSize ∧ (Memory.read s.buf a).isSome = true) :
  ∃ t, execRxFtrLast b s = .next t := by
  rw [execRxFtrLast_eq]
  set u : State := { s with ftr := s.ftr.setIfInBounds 3 b, phase := .preamble, offs := 0 } with hu
  have hd : ∃ d, memRead u u.loc.toNat u.header.length.toNat = .ok d :=
    memRead_of_written fun i hi => hr (s.loc.toNat + i) (by exact Nat.add_lt_add_left hi _)
  have h2 : ∃ d, memRead u 0 (u.loc.toNat + u.header.length.toNat) = .ok d :=
    memRead_of_written fun i hi => by rw [Nat.zero_add]; exact hr i hi
  have hd' := hd
  obtain ⟨d, hd'⟩ := hd'
  obtain ⟨t, ht⟩ := pktStep_completes (c := pktClass (rxsum u.ftr == checksum u.cfg.checksum (covered u.hdr.toList d)) u.header u.resetState u.expectedSeq) hd h2
  exact ⟨t, judge_next.2 ⟨_, verify_ok.2 ⟨d, hd', rfl⟩, ht⟩⟩

/-- The frame of a received byte: what it leaves as it was, and what its event says, if it emits one. -/
theorem rxByte_frame {b : Byte} {s t : State} (h : rxByte b s = .next t) :
  t.cfg = s.cfg ∧ t.maxPayload = s.maxPayload ∧ t.inputs = s.inputs ∧ t.readData = s.readData ∧
  (t.hdr ≠ s.hdr → s.phase = .header) ∧
  (t.loc ≠ s.loc → s.phase = .footer ∧ s.offs = 3) ∧
  (∀ a < s.loc.toNat, Memory.read t.buf a = Memory.read s.buf a) ∧
  ((t.events = s.events ∧ t.resetState = s.resetState ∧ ¬ ((s.phase = .footer ∧ s.offs = 3) ∨ (s.phase = .header ∧ s.offs = 7 ∧ (s.header.length.toNat > s.maxPayload.toNat ∨ s.loc.toNat + s.header.length.toNat > s.cfg.dgramBufSize)))) ∨
   ∃ e, t.events = s.events ++ [e] ∧ (t.resetState = s.resetState ∨ (t.resetState = .none ∧ (e.disp = .reset ∨ e.disp = .resetAck))) ∧
     ((s.phase = .footer ∧ s.offs = 3) ∨ (s.phase = .header ∧ s.offs = 7 ∧ (s.header.length.toNat > s.maxPayload.toNat ∨ s.loc.toNat + s.header.length.toNat > s.cfg.dgramBufSize))) ∧
     (e.disp.isAccept = false → t.expectedSeq = s.expectedSeq ∧ t.rxAckSeq = s.rxAckSeq ∧ t.peerErr = s.peerErr ∧
    t.loc = s.loc ∧ t.resetState = s.resetState ∧ t.maxPayload = s.maxPayload ∧ t.buf = s.buf ∧
    t.localErr = e.disp.wire ∧ t.phase = .preamble ∧ t.offs = 0)) := by
  rcases rxByte_cases h with ⟨hc, ho, p, o, rfl, hpo⟩ | ⟨hc, ho, rfl⟩ | ⟨hc, ho, hh⟩ | ⟨hc, ho, hm, rfl⟩ | ⟨hc, ho, hm, rfl⟩ | ⟨hc, ho, rfl⟩ | ⟨hc, ho, hj⟩
  · simp [hc]
  · simp [hc]; intro h; simp [h] at ho
  · have ho' : s.offs = 7 := by apply BitVec.eq_of_toNat_eq; simpa using ho
    have hl : State.header { s with hdr := s.hdr.setIfInBounds 7 b } = headerOf (s.hdr.setIfInBounds 7 b) := rfl
    have hl2 : (State.header { s with hdr := s.hdr.setIfInBounds 7 b }).length = s.header.length := by rw [hl, header_length_set7]; rfl
    rcases headerComplete_cases { s with hdr := s.hdr.setIfInBounds 7 b } with ⟨h1, e⟩ | ⟨h0, h1, e⟩ | ⟨h0, h1, h2, e⟩ | ⟨h0, h1, h2, e⟩ <;> rw [e] at hh <;> cases hh <;> rw [hl2] at h1
    · refine ⟨rfl, rfl, rfl, rfl, fun _ => hc, fun h => absurd rfl h, fun _ _ => rfl, .inr ⟨_, rfl, .inl rfl, .inr ⟨hc, ho', .inl h1⟩, ?_⟩⟩
      intro _; exact ⟨rfl, rfl, rfl, rfl, rfl, rfl, rfl, rfl, rfl, rfl⟩
    · refine ⟨rfl, rfl, rfl, rfl, fun _ => hc, fun h => absurd rfl h, fun _ _ => rfl, .inr ⟨_, rfl, .inl rfl, .inr ⟨hc, ho', .inr h1⟩, ?_⟩⟩
      intro _; exact ⟨rfl, rfl, rfl, rfl, rfl, rfl, rfl, rfl, rfl, rfl⟩
    · rw [hl2] at h0
      refine ⟨rfl, rfl, rfl, rfl, fun _ => hc, fun h => absurd rfl h, fun _ _ => rfl, .inl ⟨rfl, rfl, ?_⟩⟩
      rintro (⟨h, _⟩ | ⟨_, _, h⟩)
      · rw [hc] at h; cases h
      · simp only at h0 h1; omega
    · rw [hl2] at h0
      refine ⟨rfl, rfl, rfl, rfl, fun _ => hc, fun h => absurd rfl h, fun _ _ => rfl, .inl ⟨rfl, rfl, ?_⟩⟩
      rintro (⟨h, _⟩ | ⟨_, _, h⟩)
      · rw [hc] at h; cases h
      · simp only at h0 h1; omega
  · refine ⟨rfl, rfl, rfl, rfl, fun h => absurd rfl h, fun h => absurd rfl h, fun a ha => Memory.read_write_other _ _ (by omega), .inl ⟨rfl, rfl, by simp [hc]⟩⟩
  · refine ⟨rfl, rfl, rfl, rfl, fun h => absurd rfl h, fun h => absurd rfl h, fun a ha => Memory.read_write_other _ _ (by omega), .inl ⟨rfl, rfl, by simp [hc]⟩⟩
  · refine ⟨rfl, rfl, rfl, rfl, fun h => absurd rfl h, fun h => absurd rfl h, fun a ha => rfl, .inl ⟨rfl, rfl, ?_⟩⟩
    simp [hc]; intro h; simp [h] at ho
  · have ho' : s.offs = 3 := by apply BitVec.eq_of_toNat_eq; simpa using ho
    obtain ⟨v, hv, hst⟩ := judge_next.1 hj
    obtain ⟨d, data, h1, h2, h3, h4, h5, h6, h7, h8, h9, h10, h11, h12, h13, -⟩ := pktStep_next hst
    refine ⟨h3, h6, h8, h9, fun h => absurd h4 h, fun _ => ⟨hc, ho'⟩, fun _ _ => by rw [h7], .inr ⟨_, h1, h12, .inl ⟨hc, ho'⟩, ?_⟩⟩
    intro ha
    obtain ⟨a1, a2, a3, a4, a5⟩ := h11 ha
    exact ⟨a1, a2, a3, a4, a5, h6, h7, h2, by rcases h10 with h | h <;> exact h.1, by rcases h10 with h | h <;> exact h.2⟩

/-- The frame of a burst. -/
theorem execBurst_frame {bs : List Byte} {s t : State} (h : execBurst bs s = .next t) :
  t.cfg = s.cfg ∧ t.maxPayload = s.maxPayload ∧ t.inputs = s.inputs ∧ t.readData = s.readData ∧
  ∃ es, t.events = s.events ++ es ∧ (t.resetState = s.resetState ∨ (t.resetState = .none ∧ ∃ e ∈ es, e.disp = .reset ∨ e.disp = .resetAck)) := by
  induction bs generalizing s with
  | nil => cases h; exact ⟨rfl, rfl, rfl, rfl, [], by simp⟩
  | cons b bs ih =>
    obtain ⟨u, hu, ht⟩ := execBurst_cons_next.1 h
    obtain ⟨a1, a2, a3, a4, -, -, -, a5⟩ := rxByte_frame hu
    obtain ⟨b1, b2, b3, b4, es, b5, b6⟩ := ih ht
    refine ⟨b1.trans a1, b2.trans a2, b3.trans a3, b4.trans a4, ?_⟩
    rcases a5 with ⟨c1, c2, -⟩ | ⟨e, c1, c2, -⟩
    · exact ⟨es, by rw [b5, c1], by rwa [c2] at b6⟩
    · refine ⟨e :: es, by rw [b5, c1]; simp, ?_⟩
      rcases b6 with b6 | ⟨b6, e', he', hd⟩
      · rcases c2 with c2 | ⟨c2, hd⟩
        · exact .inl (b6.trans c2)
        · exact .inr ⟨b6.trans c2, e, by simp, hd⟩
      · exact .inr ⟨b6, e', by simp [he'], hd⟩

/-- A burst in two parts. -/
theorem execBurst_append {xs ys : List Byte} {s t u : State} (h : execBurst xs s = .next u)
    (h' : execBurst ys u = .next t) : execBurst (xs ++ ys) s = .next t := by
  induction xs generalizing s with
  | nil => cases h; exact h'
  | cons b xs ih =>
    obtain ⟨v, hv, hu⟩ := execBurst_cons_next.1 h
    exact execBurst_cons_next.2 ⟨v, hv, ih hu⟩

end Sys2Proof.Machine
end

