-- ==== Sys2Proof/Laws/Invariant.lean ====
section
/-! SUPPORT. The invariant `State.Inv` over one received byte. -/

namespace Sys2Proof.Machine

/-- What the buffer holds fits it. -/
theorem filled_le {s : State} (hi : s.Inv) : s.filled ≤ s.cfg.dgramBufSize := by
  have hp := hi.pos; have hl := hi.locLe
  unfold State.posOk at hp; unfold State.filled
  cases hc : s.phase <;> rw [hc] at hp <;> simp only at hp ⊢ <;> omega

theorem dgramBufSize_lt {s : State} (hi : s.Inv) : s.cfg.dgramBufSize < 2 ^ 32 := by
  have := hi.cfgWf
  simp [Config.wf] at this
  omega

/-- `OFFS + 1` does not wrap below a 16-bit bound. -/
theorem offs_succ {o : Half} {n : Nat} (h : o.toNat + 1 < n) (hn : n ≤ 65536) : (o+1).toNat = o.toNat + 1 := by
  rw [BitVec.toNat_add]; simp; omega

/-- `LOC + n` does not wrap where it fits 32 bits. -/
theorem locPlus_toNat {s : State} {n : Half} (h : s.loc.toNat + n.toNat < 2^32) : (locPlus s n).toNat = s.loc.toNat + n.toNat := by
  simp only [locPlus, BitVec.toNat_ofNat]; exact Nat.mod_eq_of_lt h

/-- The model's own fields are no part of the invariant. -/
theorem inv_ports {s : State} (hi : s.Inv) (i : List Input) (e : List Event) (r : Option Word) :
    State.Inv { s with inputs := i, events := e, readData := r } :=
  ⟨hi.cfgWf, hi.bufWf, hi.bufIn, hi.pos, hi.locLe, hi.written⟩

/-- Back in the marker search with `LOC` as before or 0, the invariant holds. -/
theorem inv_of_init {s t : State} (hi : s.Inv) (hc : t.cfg = s.cfg) (hb : t.buf = s.buf) (hp : t.phase = .preamble) (ho : t.offs.toNat ≤ 1) (hl : t.loc = 0 ∨ t.loc = s.loc) : t.Inv := by
  refine ⟨by rw [hc]; exact hi.cfgWf, by rw [hb]; exact hi.bufWf, by rw [hb, hc]; exact hi.bufIn, by simp [State.posOk, hp, ho], ?_, ?_⟩
  · rw [hc]; rcases hl with h | h <;> rw [h]
    · simp
    · exact hi.locLe
  · intro a ha; rw [State.filled, hp] at ha; simp only at ha
    rcases hl with h | h <;> rw [h] at ha
    · simp at ha
    · rw [hb]; apply hi.written
      have : s.loc.toNat ≤ s.filled := by unfold State.filled; cases s.phase <;> simp
      omega

/-- A received byte keeps the invariant. -/
theorem inv_rxByte {b : Byte} {s t : State} (hi : s.Inv) (h : rxByte b s = .next t) : t.Inv := by
  have hfl := filled_le hi
  have hlt := dgramBufSize_lt hi
  have hLl := length_lt s.header.length
  have hp := hi.pos
  unfold State.posOk at hp
  rcases rxByte_cases h with ⟨hc, ho, p, o, rfl, hpo⟩ | ⟨hc, ho, rfl⟩ | ⟨hc, ho, hh⟩ | ⟨hc, ho, hm, rfl⟩ | ⟨hc, ho, hm, rfl⟩ | ⟨hc, ho, rfl⟩ | ⟨hc, ho, hj⟩
  · refine ⟨hi.cfgWf, hi.bufWf, hi.bufIn, ?_, hi.locLe, ?_⟩
    · rcases hpo with ⟨rfl, h⟩ | ⟨rfl, rfl⟩ <;> simp [State.posOk, *]
    · have := hi.written
      rcases hpo with ⟨rfl, h⟩ | ⟨rfl, rfl⟩ <;> simpa [State.filled, hc] using this
  · refine ⟨hi.cfgWf, hi.bufWf, hi.bufIn, ?_, hi.locLe, ?_⟩
    · simp only [State.posOk, hc]; rw [offs_succ (n := 8)] <;> first | omega | (simp only [hdrLen]; omega)
    · have := hi.written; simpa [State.filled, hc] using this
  · -- header last
    have hw := hi.written
    rw [State.filled, hc] at hw
    simp only at hw
    rcases headerComplete_cases { s with hdr := s.hdr.setIfInBounds 7 b } with ⟨_, e⟩ | ⟨_, _, e⟩ | ⟨_, h2, h3, e⟩ | ⟨_, h2, h3, e⟩ <;> rw [e] at hh <;> cases hh
    · exact ⟨hi.cfgWf, hi.bufWf, hi.bufIn, by simp [State.posOk], hi.locLe, by simpa [State.filled] using hw⟩
    · exact ⟨hi.cfgWf, hi.bufWf, hi.bufIn, by simp [State.posOk], hi.locLe, by simpa [State.filled] using hw⟩
    · refine ⟨hi.cfgWf, hi.bufWf, hi.bufIn, ⟨by simp, h2⟩, hi.locLe, ?_⟩
      simp only [State.filled, setPos_phase, setPos_loc, setPos_header, h3]
      simpa using hw
    · refine ⟨hi.cfgWf, hi.bufWf, hi.bufIn, ⟨h3, by simp; exact h3, h2⟩, hi.locLe, ?_⟩
      simpa [State.filled] using hw
  · rw [hc] at hp
    simp only at hp
    have hw := hi.written
    rw [State.filled, hc] at hw; simp only at hw
    have hs := offs_succ ho (by omega)
    refine ⟨hi.cfgWf, Memory.write_wf _ _ hi.bufWf, ?_, ?_, hi.locLe, ?_⟩
    · intro c hcm; rcases Memory.mem_write hcm with rfl | hcm
      · exact hm
      · exact hi.bufIn c hcm
    · simp only [State.posOk, hc]
      refine ⟨hp.1, ?_, hp.2.2⟩
      change (s.offs+1).toNat < s.header.length.toNat
      omega
    · intro a ha
      simp only [State.filled, hc, hs] at ha
      change (Memory.read (Memory.write s.buf _ b) a).isSome = true
      rw [Memory.read_write]; split_ifs with h
      · rfl
      · exact hw a (by omega)
  · rw [hc] at hp
    simp only at hp
    have hw := hi.written
    rw [State.filled, hc] at hw; simp only at hw
    refine ⟨hi.cfgWf, Memory.write_wf _ _ hi.bufWf, ?_, ?_, hi.locLe, ?_⟩
    · intro c hcm; rcases Memory.mem_write hcm with rfl | hcm
      · exact hm
      · exact hi.bufIn c hcm
    · simp only [State.posOk]
      exact ⟨by simp, hp.2.2⟩
    · intro a ha
      simp only [State.filled] at ha
      change a < s.loc.toNat + s.header.length.toNat at ha
      change (Memory.read (Memory.write s.buf _ b) a).isSome = true
      rw [Memory.read_write]; split_ifs with h
      · rfl
      · exact hw a (by omega)
  · rw [hc] at hp; simp only at hp
    have hw := hi.written
    refine ⟨hi.cfgWf, hi.bufWf, hi.bufIn, ?_, hi.locLe, ?_⟩
    · simp only [State.posOk, hc]; rw [offs_succ (n := 4)] <;> first | omega | exact ⟨by simp only [ftrLen]; omega, hp.2⟩
    · intro a ha
      rw [State.filled, hc] at hw
      simp only [State.filled, hc] at ha
      exact hw a ha
  · rw [hc] at hp; simp only at hp
    have hw := hi.written
    rw [State.filled, hc] at hw; simp only at hw
    obtain ⟨v, hv, hst⟩ := judge_next.1 hj
    obtain ⟨d, data, h1, h2, h3, h4, h5, h6, h7, h8, h9, h10, h11, h12, h13, -⟩ := pktStep_next hst
    have hph : t.phase = .preamble := by rcases h10 with h | h <;> exact h.1
    have hof : t.offs = 0 := by rcases h10 with h | h <;> exact h.2
    have hloc : t.loc.toNat ≤ s.loc.toNat + s.header.length.toNat := by
      rcases h13 with h | h | h <;> rw [h]
      · exact Nat.le_add_right ..
      · simp
      · rw [locPlus_toNat]
        · exact le_refl _
        · change s.loc.toNat + s.header.length.toNat < 2^32; omega
    refine ⟨by rw [h3]; exact hi.cfgWf, by rw [h7]; exact hi.bufWf, by rw [h7, h3]; exact hi.bufIn, ?_, by rw [h3]; change _ ≤ s.cfg.dgramBufSize; omega, ?_⟩
    · simp [State.posOk, hph, hof]
    · intro a ha
      rw [State.filled, hph] at ha
      rw [h7]; exact hw a (by simp only at ha; omega)

/-- A received byte completes under the invariant. -/
theorem rxByte_completes (b : Byte) {s : State} (hi : s.Inv) : ∃ t, rxByte b s = .next t := by
  obtain ⟨op, hop⟩ := byteOp_of_posOk b hi.pos
  have h2 : preLen = 2 := rfl
  have h8 : hdrLen = 8 := rfl
  have h4 : ftrLen = 4 := rfl
  suffices ∃ t, byteStep op b s = .next t by
    obtain ⟨t, ht⟩ := this; exact ⟨t, rxByte_next.2 ⟨op, hop, ht⟩⟩
  have hp := hi.pos
  unfold State.posOk at hp; unfold byteOp at hop
  cases hc : s.phase with
  | preamble => simp only [hc] at hop; split_ifs at hop <;> cases hop <;> exact ⟨_, rfl⟩
  | header =>
    simp only [hc] at hop; split_ifs at hop <;> cases hop
    · exact ⟨_, by simp only [byteStep, execRxHdr, setHdr_of_lt b (show s.offs.toNat < hdrLen by omega), whenOk_ok]; rfl⟩
    · simp only [byteStep]; rw [execRxHdrLast_eq]
      rcases headerComplete_cases { s with hdr := s.hdr.setIfInBounds 7 b } with ⟨_, e⟩ | ⟨_, _, e⟩ | ⟨_, _, _, e⟩ | ⟨_, _, _, e⟩ <;> exact ⟨_, e⟩
  | payload =>
    simp only [hc] at hop hp; split_ifs at hop <;> cases hop
    · exact ⟨_, by simp only [byteStep, execRxPay, memWrite, if_pos (show s.loc.toNat + s.offs.toNat < s.cfg.dgramBufSize by omega), whenOk_ok]; rfl⟩
    · exact ⟨_, by simp only [byteStep, execRxPayLast, memWrite, if_pos (show s.loc.toNat + s.offs.toNat < s.cfg.dgramBufSize by omega), whenOk_ok]; rfl⟩
  | footer =>
    simp only [hc] at hop hp; split_ifs at hop <;> cases hop
    · exact ⟨_, by simp only [byteStep, execRxFtr, setFtr_of_lt b (show s.offs.toNat < ftrLen by omega), whenOk_ok]; rfl⟩
    · apply execRxFtrLast_completes
      intro a ha
      exact ⟨by omega, hi.written a (by simpa [State.filled, hc] using ha)⟩

end Sys2Proof.Machine
end

