-- ==== Sys2Proof/Laws/Packet.lean ====
section
/-! SUPPORT. The parts of a packet as bursts: marker, header, payload, footer. -/

namespace Sys2Proof.Machine

/-- The marker, from anywhere in the marker search. -/
theorem execBurst_marker {s : State} (hi : s.posOk) (hp : s.phase = .preamble) : execBurst [preamble0, preamble1] s = .next { s with phase := .header, offs := 0 } := by
  have h1 : rxByte preamble0 s = .next { s with offs := 1 } := by
    have : s.offs.toNat = 0 ∨ s.offs.toNat = 1 := by simp [State.posOk, hp] at hi; omega
    rcases this with h | h
    · exact rxByte_next.2 ⟨.pre0Hit, by simp [byteOp, hp, h], rfl⟩
    · exact rxByte_next.2 ⟨.pre1Retry, by simp [byteOp, hp, h, preamble0, preamble1], rfl⟩
  refine execBurst_cons_next.2 ⟨_, h1, execBurst_cons_next.2 ⟨_, rxByte_next.2 ⟨.pre1Hit, ?_, rfl⟩, rfl⟩⟩
  simp [byteOp, hp]

theorem rxByte_header {s : State} (hp : s.phase = .header) (b : Byte) (h : s.offs.toNat + 1 < 8) : rxByte b s = .next { s with hdr := s.hdr.setIfInBounds s.offs.toNat b, offs := s.offs + 1 } := by
  refine rxByte_next.2 ⟨.hdr, ?_, ?_⟩
  · have : s.offs.toNat + 1 < hdrLen := h
    simp only [byteOp, hp, this, if_true]
  · simp only [byteStep, execRxHdr, setHdr_of_lt b (show s.offs.toNat < 8 by omega), whenOk_ok]; rfl

theorem rxByte_headerLast {s : State} (hp : s.phase = .header) (b : Byte) (h : s.offs = 7) : rxByte b s = headerComplete { s with hdr := s.hdr.setIfInBounds 7 b } := by
  rw [← execRxHdrLast_eq]
  have : byteOp s.phase s.offs s.header.length b = some .hdrLast := by simp [byteOp, hp, h, hdrLen]
  simp only [rxByte, this]; rfl

/-- The eight header bytes reach header completion with the header held. -/
theorem execBurst_header {s : State} (hp : s.phase = .header) (ho : s.offs = 0) (h : Header) : execBurst h.bytes s = headerComplete { s with hdr := h.toHdr, offs := 7 } := by
  obtain ⟨cfg,ph,of,⟨⟨l⟩,hl⟩,ftr,loc,es,ra,pe,le,rs,mp,buf,ii,ee,rr⟩ := s
  simp only at hp ho; subst hp ho
  match l, hl with
  | [a,b,c,d,e,f,g,i], _ =>
  simp only [Header.bytes_eq, execBurst]
  iterate 7 rw [rxByte_header rfl _ (by simp)]; simp only
  rw [rxByte_headerLast rfl _ rfl]
  have e : h.toHdr = #v[h.flags, h.code, h.ackSeq, h.seq, halfByte h.length 0, halfByte h.length 1,
      h.rsvd0, h.rsvd1] := rfl
  rw [e]
  simp
  rcases headerComplete_cases _ with ⟨_, h⟩ | ⟨_, _, h⟩ | ⟨_, _, _, h⟩ | ⟨_, _, _, h⟩ <;> rw [h]

/-- `BUF` after a run of bytes from an address on. -/
def Memory.writes (m : List Host.Cell) (a : Nat) : List Byte → List Host.Cell
  | [] => m
  | b :: bs => Memory.writes (Memory.write m a b) (a+1) bs

/-- What reads back after a run of bytes. -/
theorem Memory.read_writes (m : List Host.Cell) (a : Nat) (p : List Byte) (i : Nat) : Memory.read (Memory.writes m a p) i = if a ≤ i ∧ i < a + p.length then p[i-a]? else Memory.read m i := by
  induction p generalizing m a with
  | nil => rw [if_neg (by simp)]; rfl
  | cons b p ih =>
    simp only [Memory.writes, ih, Memory.read_write, List.length_cons]
    by_cases h : i = a
    · subst h; simp
    · by_cases h2 : a + 1 ≤ i ∧ i < a + 1 + p.length
      · rw [if_pos h2, if_pos (by omega)]; rw [show i - a = (i - (a+1)) + 1 by omega]; simp
      · rw [if_neg h2, if_neg h, if_neg (by omega)]

/-- The payload bytes are stored from `LOC + OFFS` on and reach the footer. -/
theorem execBurst_payload {s : State} (p : List Byte) (hp : s.phase = .payload) (hne : p ≠ []) (hl : s.offs.toNat + p.length = s.header.length.toNat)
   (hr : s.loc.toNat + s.header.length.toNat ≤ s.cfg.dgramBufSize) :
   execBurst p s = .next { s with buf := Memory.writes s.buf (s.loc.toNat + s.offs.toNat) p, phase := .footer, offs := 0 } := by
  induction p generalizing s with
  | nil => exact absurd rfl hne
  | cons b p ih =>
    have hLl := length_lt s.header.length
    simp only [List.length_cons] at hl
    cases p with
    | nil =>
      refine execBurst_cons_next.2 ⟨_, rxByte_next.2 ⟨.payLast, ?_, ?_⟩, rfl⟩
      · simp only [List.length_nil] at hl
        simp only [byteOp, hp]; rw [if_neg (by omega), if_pos (by omega)]
      · simp only [byteStep, execRxPayLast, memWrite]; rw [if_pos (by omega)]; rfl
    | cons b2 p =>
      have h1 : s.offs.toNat + 1 < s.header.length.toNat := by simp only [List.length_cons] at hl; omega
      have hu : rxByte b s = .next { s with buf := Memory.write s.buf (s.loc.toNat + s.offs.toNat) b, offs := s.offs + 1 } := by
        refine rxByte_next.2 ⟨.pay, ?_, ?_⟩
        · simp only [byteOp, hp]; rw [if_pos h1]
        · simp only [byteStep, execRxPay, memWrite]; rw [if_pos (by omega)]; rfl
      have h2 : (s.offs + 1).toNat = s.offs.toNat + 1 := offs_succ h1 (by omega)
      have := ih (s := { s with buf := Memory.write s.buf (s.loc.toNat + s.offs.toNat) b, offs := s.offs + 1 }) hp (by simp) (by change (s.offs+1).toNat + _ = s.header.length.toNat; rw [h2]; omega) hr
      refine execBurst_cons_next.2 ⟨_, hu, ?_⟩
      rw [this]; simp only [h2]; rfl

theorem rxByte_footer {s : State} (hp : s.phase = .footer) (b : Byte) (h : s.offs.toNat + 1 < 4) : rxByte b s = .next { s with ftr := s.ftr.setIfInBounds s.offs.toNat b, offs := s.offs + 1 } := by
  refine rxByte_next.2 ⟨.ftr, ?_, ?_⟩
  · have : s.offs.toNat + 1 < ftrLen := h
    simp only [byteOp, hp, this, if_true]
  · simp only [byteStep, execRxFtr, setFtr_of_lt b (show s.offs.toNat < 4 by omega), whenOk_ok]; rfl

theorem rxByte_footerLast {s : State} (hp : s.phase = .footer) (b : Byte) (h : s.offs = 3) : rxByte b s = judge { s with ftr := s.ftr.setIfInBounds 3 b, phase := .preamble, offs := 0 } := by
  rw [← execRxFtrLast_eq]
  have : byteOp s.phase s.offs s.header.length b = some .ftrLast := by simp [byteOp, hp, h, ftrLen]
  simp only [rxByte, this]; rfl

/-- The four footer bytes reach the verdict with the checksum held. -/
theorem execBurst_footer {s t : State} (hp : s.phase = .footer) (ho : s.offs = 0) (a b c d : Byte) (hj : judge { s with ftr := #v[a,b,c,d], phase := .preamble, offs := 0 } = .next t) : execBurst [a,b,c,d] s = .next t := by
  obtain ⟨cfg,ph,of,hdr,⟨⟨l⟩,hl⟩,loc,es,ra,pe,le,rs,mp,buf,ii,ee,rr⟩ := s
  simp only at hp ho; subst hp ho
  match l, hl with
  | [w,x,y,z], _ =>
  simp only [execBurst]
  iterate 3 rw [rxByte_footer rfl _ (by simp)]; simp only
  rw [rxByte_footerLast rfl _ rfl]
  simp at hj ⊢
  rw [hj]

end Sys2Proof.Machine
end

