-- ==== Sys2Proof/Laws/PerInstr.lean ====
section
/-! SUPPORT. Statements made of every constructor of `Instr`. -/

namespace Sys2Proof.Laws.EncodeFormat

/-- The code an operation is encoded to has the operation's own format (R106). -/
def Statement (i : Instr) : Prop := (encode i).format = i.format

theorem pktBadsum (h : Header) : Statement (.pktBadsum h) := rfl
theorem pktReset (h : Header) : Statement (.pktReset h) := rfl
theorem pktResetAck (h : Header) : Statement (.pktResetAck h) := rfl
theorem pktResetAckStray (h : Header) : Statement (.pktResetAckStray h) := rfl
theorem pktCtrlUnfin (h : Header) : Statement (.pktCtrlUnfin h) := rfl
theorem pktAttrRsvd (h : Header) : Statement (.pktAttrRsvd h) := rfl
theorem pktAck (h : Header) : Statement (.pktAck h) := rfl
theorem pktAckUnfin (h : Header) : Statement (.pktAckUnfin h) := rfl
theorem pktDataResetting (h : Header) : Statement (.pktDataResetting h) := rfl
theorem pktDataOrder (h : Header) : Statement (.pktDataOrder h) := rfl
theorem pktDataFrag (h : Header) : Statement (.pktDataFrag h) := rfl
theorem pktDataFin (h : Header) : Statement (.pktDataFin h) := rfl
theorem rxPre0Hit : Statement (.rxPre0Hit) := rfl
theorem rxPre0Skip (b : Byte) : Statement (.rxPre0Skip b) := rfl
theorem rxPre1Hit : Statement (.rxPre1Hit) := rfl
theorem rxPre1Retry : Statement (.rxPre1Retry) := rfl
theorem rxPre1Miss (b : Byte) : Statement (.rxPre1Miss b) := rfl
theorem rxHdr (b : Byte) : Statement (.rxHdr b) := rfl
theorem rxHdrLast (b : Byte) : Statement (.rxHdrLast b) := rfl
theorem rxPay (b : Byte) : Statement (.rxPay b) := rfl
theorem rxPayLast (b : Byte) : Statement (.rxPayLast b) := rfl
theorem rxFtr (b : Byte) : Statement (.rxFtr b) := rfl
theorem rxFtrLast (b : Byte) : Statement (.rxFtrLast b) := rfl
theorem hdrendErrHeader : Statement (.hdrendErrHeader) := rfl
theorem hdrendErrOom : Statement (.hdrendErrOom) := rfl
theorem hdrendToFooter : Statement (.hdrendToFooter) := rfl
theorem hdrendToPayload : Statement (.hdrendToPayload) := rfl
theorem hardReset : Statement (.hardReset) := rfl
theorem cmdLinkReset (v : Word) : Statement (.cmdLinkReset v) := rfl
theorem cmdRxAbort (v : Word) : Statement (.cmdRxAbort v) := rfl
theorem cmdNop (v : Word) : Statement (.cmdNop v) := rfl
theorem csrWriteRxCfg (v : Word) : Statement (.csrWriteRxCfg v) := rfl
theorem csrWriteIgnored (n : Nat) (v : Word) : Statement (.csrWriteIgnored n v) := rfl
theorem csrRead (n : Nat) : Statement (.csrRead n) := rfl
theorem burst (bytes : List Byte) : Statement (.burst bytes) := rfl

end Sys2Proof.Laws.EncodeFormat
end

