-- ==== Sys2Proof/Tests/Slice0.lean ====
section
/-! SUPPORT. Tests. Expected values come from spec/95_test_vectors (named V.., W.., P..) and from the
patterns of spec/opcode_table.json; the witnesses show that the hypotheses of each statement of
Certificates/Slice0/Obligations.lean can be met. -/

namespace Sys2Proof.Tests

open Sys2Proof.Machine

/-! ### Small states -/

/-- S0 of 95_test_vectors. -/
abbrev s0 : State := State.reset

/-- S1 of 95_test_vectors: S0 followed by `RESET []`. -/
def s1 : State :=
  { State.reset with
    resetState := .none, hdr := #v[0, 0x10, 0, 0, 0, 0, 0, 0], ftr := #v[0xFE, 0x8F, 0x7B, 0xA1] }

/-- A state at a position, with a declared length below 256. -/
def at' (p : Phase) (o : Half) (len : Byte) (s : State) : State :=
  { s with phase := p, offs := o, hdr := #v[0, 0, 0, 0, len, 0, 0, 0] }

/-- A header. -/
def hd (flags code ackSeq seq : Byte) (len : Half) : Header :=
  { flags := flags, code := code, ackSeq := ackSeq, seq := seq, length := len, rsvd0 := 0, rsvd1 := 0 }

/-- The outcome is a next state with this property. -/
def nextIs (r : Result) (p : State → Bool) : Bool :=
  match r with
  | .next t => p t
  | .fault _ => false
  | .refused _ => false

/-- `LOC EXP ACK PERR LERR RST` of 95_test_vectors. -/
def regs (s : State) : Word × Byte × Byte × Nibble × Nibble × ResetState :=
  (s.loc, s.expectedSeq, s.rxAckSeq, s.peerErr, s.localErr, s.resetState)

/-- Dispositions and data of the events. -/
def evs (s : State) : List (Disp × List Byte) := s.events.map fun e => (e.disp, e.data)

/-! ### WellFormed: an ill-formed term for each check -/

theorem test_wf_reset_attr : Instr.wf (.pktReset (hd 0 0x20 0 0 0)) = false := by decide
theorem test_wf_reset_unf : Instr.wf (.pktReset (hd 1 0x10 0 0 0)) = false := by decide
theorem test_wf_resetAck_attr : Instr.wf (.pktResetAck (hd 0 0x10 0 0 0)) = false := by decide
theorem test_wf_resetAck_unf : Instr.wf (.pktResetAck (hd 1 0x20 0 0 0)) = false := by decide
theorem test_wf_stray_attr : Instr.wf (.pktResetAckStray (hd 0 0 0 0 0)) = false := by decide
theorem test_wf_stray_unf : Instr.wf (.pktResetAckStray (hd 1 0x20 0 0 0)) = false := by decide
theorem test_wf_ctrlUnfin_attr : Instr.wf (.pktCtrlUnfin (hd 1 0x30 0 0 0)) = false := by decide
theorem test_wf_ctrlUnfin_fin : Instr.wf (.pktCtrlUnfin (hd 0 0x10 0 0 0)) = false := by decide
theorem test_wf_attrRsvd : Instr.wf (.pktAttrRsvd (hd 0 0x2F 0 0 0)) = false := by decide
theorem test_wf_ack_length : Instr.wf (.pktAck (hd 0 0 0 0 0x100)) = false := by decide
theorem test_wf_ack_unf : Instr.wf (.pktAck (hd 1 0 0 0 0)) = false := by decide
theorem test_wf_ack_attr : Instr.wf (.pktAck (hd 0 0x10 0 0 0)) = false := by decide
theorem test_wf_ackUnfin_fin : Instr.wf (.pktAckUnfin (hd 0 0 0 0 0)) = false := by decide
theorem test_wf_ackUnfin_length : Instr.wf (.pktAckUnfin (hd 1 0 0 0 1)) = false := by decide
theorem test_wf_dataResetting : Instr.wf (.pktDataResetting (hd 0 0 0 0 0)) = false := by decide
theorem test_wf_dataOrder : Instr.wf (.pktDataOrder (hd 0 0x10 0 0 1)) = false := by decide
theorem test_wf_dataFrag_fin : Instr.wf (.pktDataFrag (hd 0 0 0 0 1)) = false := by decide
theorem test_wf_dataFrag_empty : Instr.wf (.pktDataFrag (hd 1 0 0 0 0)) = false := by decide
theorem test_wf_dataFin_unf : Instr.wf (.pktDataFin (hd 1 0 0 0 1)) = false := by decide
theorem test_wf_dataFin_empty : Instr.wf (.pktDataFin (hd 0 0 0 0 0)) = false := by decide
theorem test_wf_pre0Skip : Instr.wf (.rxPre0Skip 0x68) = false := by decide
theorem test_wf_pre1Miss_hit : Instr.wf (.rxPre1Miss 0x43) = false := by decide
theorem test_wf_pre1Miss_retry : Instr.wf (.rxPre1Miss 0x68) = false := by decide
theorem test_wf_linkReset : Instr.wf (.cmdLinkReset 2) = false := by decide
theorem test_wf_rxAbort_both : Instr.wf (.cmdRxAbort 3) = false := by decide
theorem test_wf_rxAbort_none : Instr.wf (.cmdRxAbort 4) = false := by decide
theorem test_wf_nop : Instr.wf (.cmdNop 1) = false := by decide
theorem test_wf_nop_abort : Instr.wf (.cmdNop 2) = false := by decide
theorem test_wf_ignored : Instr.wf (.csrWriteIgnored 1 0) = false := by decide
theorem test_decode_position_refused :
    decode ((at' .preamble 2 0 s0).ctx false) (.input (.rxByte 0x68)) = .error .noOperation := by decide
theorem test_decode_marker_refused :
    decode (s0.ctx true) (.packet [0x43, 0x68, 0, 0, 0, 0, 0, 0, 0, 0]) = .error .badPreamble := by decide
theorem test_decode_length_refused :
    decode (s0.ctx true) (.packet [0x68, 0x43, 0, 0, 0, 0, 0, 0, 0]) = .error .badLength := by decide

/-! ### Decode: every row, its code written from the table's pattern

`PKT` words byte by byte, each byte most significant bit first, as the "encoding" strings are. -/

/-- A row test: the selecting state, the code, the operation. -/
abbrev Row := Ctx × Code × Instr

/-- The row's condition, its decoding and its encoding agree. -/
def rowOk (r : Row) : Bool :=
  r.2.2.wf && selects r.1 r.2.2 && decide (decode r.1 r.2.1 = .ok r.2.2) && decide (encode r.2.2 = r.2.1)

def pktRowsControl : List Row :=
  [ (s0.ctx false,
      .packet [0b01101000, 0b01000011, 0b11111110, 0b00010101, 1, 2, 0b00000011, 0b00000100, 5, 6],
      .pktBadsum { hd 0xFE 0x15 1 2 0x0403 with rsvd0 := 5, rsvd1 := 6 }),
    (s0.ctx true,
      .packet [0b01101000, 0b01000011, 0b10101010, 0b00010101, 1, 2, 0b00000011, 0b00000100, 5, 6],
      .pktReset { hd 0xAA 0x15 1 2 0x0403 with rsvd0 := 5, rsvd1 := 6 }),
    (s0.ctx true,
      .packet [0b01101000, 0b01000011, 0b00000010, 0b00101111, 0, 0, 0b00000000, 0b00000001, 0, 0],
      .pktResetAck (hd 2 0x2F 0 0 0x0100)),
    (s1.ctx true,
      .packet [0b01101000, 0b01000011, 0b00000000, 0b00100000, 0, 0, 0b00000010, 0b00000000, 0, 0],
      .pktResetAckStray (hd 0 0x20 0 0 2)),
    (s1.ctx true,
      .packet [0b01101000, 0b01000011, 0b00000001, 0b00010000, 0, 0, 0b00000001, 0b00000000, 0, 0],
      .pktCtrlUnfin (hd 1 0x10 0 0 1)),
    (s1.ctx true,
      .packet [0b01101000, 0b01000011, 0b00000001, 0b00110000, 0, 0, 0b00000001, 0b00000000, 0, 0],
      .pktAttrRsvd (hd 1 0x30 0 0 1)) ]

def pktRowsData : List Row :=
  [ (s0.ctx true,
      .packet [0b01101000, 0b01000011, 0b00000000, 0b00000101, 7, 9, 0b00000000, 0b00000000, 0, 0],
      .pktAck (hd 0 5 7 9 0)),
    (s0.ctx true,
      .packet [0b01101000, 0b01000011, 0b00000001, 0b00000000, 4, 0, 0b00000000, 0b00000000, 0, 0],
      .pktAckUnfin (hd 1 0 4 0 0)),
    (s0.ctx true,
      .packet [0b01101000, 0b01000011, 0b00000000, 0b00000000, 0, 0, 0b00000001, 0b00000000, 0, 0],
      .pktDataResetting (hd 0 0 0 0 1)),
    (s1.ctx true,
      .packet [0b01101000, 0b01000011, 0b00000000, 0b00000000, 0x10, 2, 0b00000001, 0b00000000, 0, 0],
      .pktDataOrder (hd 0 0 0x10 2 1)),
    (s1.ctx true,
      .packet [0b01101000, 0b01000011, 0b00000001, 0b00000000, 0, 0, 0b00000000, 0b00000001, 0, 0],
      .pktDataFrag (hd 1 0 0 0 0x0100)),
    (s1.ctx true,
      .packet [0b01101000, 0b01000011, 0b11111110, 0b00001111, 3, 0, 0b00000001, 0b00000000, 0xDE, 0xAD],
      .pktDataFin { hd 0xFE 0x0F 3 0 1 with rsvd0 := 0xDE, rsvd1 := 0xAD }) ]

def byteRows : List Row :=
  [ ((at' .preamble 0 0 s1).ctx false, .input (.rxByte 0b01101000), .rxPre0Hit),
    ((at' .preamble 0 0 s1).ctx false, .input (.rxByte 0b01000011), .rxPre0Skip 0x43),
    ((at' .preamble 1 0 s1).ctx false, .input (.rxByte 0b01000011), .rxPre1Hit),
    ((at' .preamble 1 0 s1).ctx false, .input (.rxByte 0b01101000), .rxPre1Retry),
    ((at' .preamble 1 0 s1).ctx false, .input (.rxByte 0b00000000), .rxPre1Miss 0),
    ((at' .header 0 0 s1).ctx false, .input (.rxByte 0b01101000), .rxHdr 0x68),
    ((at' .header 6 0 s1).ctx false, .input (.rxByte 0b00000001), .rxHdr 1),
    ((at' .header 7 0 s1).ctx false, .input (.rxByte 0b01000011), .rxHdrLast 0x43),
    ((at' .payload 0 2 s1).ctx false, .input (.rxByte 0b01101000), .rxPay 0x68),
    ((at' .payload 1 2 s1).ctx false, .input (.rxByte 0b01000011), .rxPayLast 0x43),
    ((at' .footer 0 0 s1).ctx false, .input (.rxByte 0b01101000), .rxFtr 0x68),
    ((at' .footer 2 0 s1).ctx false, .input (.rxByte 0b00000000), .rxFtr 0),
    ((at' .footer 3 0 s1).ctx false, .input (.rxByte 0b11111111), .rxFtrLast 0xFF) ]

def hdrendRows : List Row :=
  [ ((at' .header 7 5 s1).ctx false, .headerEnd, .hdrendErrHeader),
    ((at' .header 7 4 { s1 with loc := 13 }).ctx false, .headerEnd, .hdrendErrOom),
    ((at' .header 7 0 { s1 with loc := 16 }).ctx false, .headerEnd, .hdrendToFooter),
    ((at' .header 7 4 { s1 with loc := 12 }).ctx false, .headerEnd, .hdrendToPayload) ]

def csrRows : List Row :=
  [ (s1.ctx false, .input .hardReset, .hardReset),
    (s1.ctx false, .input (.csrWrite 0 0x00000003), .cmdLinkReset 3),
    (s1.ctx false, .input (.csrWrite 0 0x00000002), .cmdRxAbort 2),
    (s1.ctx false, .input (.csrWrite 0 0xFFFFFFFC), .cmdNop 0xFFFFFFFC),
    (s1.ctx false, .input (.csrWrite 1 0x00010004), .csrWriteRxCfg 0x00010004),
    (s1.ctx false, .input (.csrWrite 2 0xFFFFFFFF), .csrWriteIgnored 2 0xFFFFFFFF),
    (s1.ctx false, .input (.csrRead 7), .csrRead 7),
    (s1.ctx false, .burst [0x68, 0x43], .burst [0x68, 0x43]) ]

theorem test_decode_pkt_control : pktRowsControl.all rowOk = true := by decide
theorem test_decode_pkt_data : pktRowsData.all rowOk = true := by decide
theorem test_decode_byte : byteRows.all rowOk = true := by decide
theorem test_decode_hdrend : hdrendRows.all rowOk = true := by decide
theorem test_decode_csr : csrRows.all rowOk = true := by decide

/-- Every reading of one `PKT` word by the state: BADSUM, RESETTING, ORDER, FIN. -/
theorem test_decode_state_splits :
    (decode (s1.ctx false) (.packet (packetWord (hd 0 0 0 0 1)))).toOption = some (.pktBadsum (hd 0 0 0 0 1)) ∧
    (decode (s0.ctx true) (.packet (packetWord (hd 1 0 0 0 1)))).toOption = some (.pktDataResetting (hd 1 0 0 0 1)) ∧
    (decode (s1.ctx true) (.packet (packetWord (hd 1 0 0 1 1)))).toOption = some (.pktDataOrder (hd 1 0 0 1 1)) := by
  decide

/-! ### Effects: byte operations -/

/-- V2. -/
theorem test_pre0Hit : nextIs (exec .rxPre0Hit s1) (· == { s1 with offs := 1 }) = true := by decide
theorem test_pre0Skip : nextIs (exec (.rxPre0Skip 0xFF) s1) (· == s1) = true := by decide
theorem test_pre1Hit :
    nextIs (exec (.burst [0x68, 0x68, 0x68, 0x43]) s1) (· == { s1 with phase := .header, offs := 0 }) = true := by
  decide
theorem test_pre1Retry : nextIs (exec (.burst [0x68, 0x68]) s1) (· == { s1 with offs := 1 }) = true := by decide
theorem test_pre1Miss : nextIs (exec (.burst [0x68, 0x00, 0x43]) s1) (· == s1) = true := by decide

/-- V24: three header bytes of a next packet; the rest of `HDR` is the packet before. -/
theorem test_hdr :
    nextIs (exec (.burst [0x68, 0x43, 0x01, 0x25, 0x07]) { s1 with hdr := #v[0, 0, 1, 0, 2, 0, 0, 0] })
      (fun t => readReg t 2 == 0x00030001 && readReg t 5 == 0x00072501 && readReg t 6 == 0x00000002) = true := by
  decide

/-- V4: the tenth byte of an oversized packet. -/
theorem test_hdrLast_errHeader :
    nextIs (exec (.rxHdrLast 0) (at' .header 7 5 s1))
      (fun t => t.phase == .preamble && t.offs == 0 && regs t == (0, 0, 0, 0, 4, .none)
        && t.events == [eventOf .errHeader (hd 0 0 0 0 5) []]) = true := by
  decide

/-- V7: 4 + 3 > 6. -/
theorem test_hdrLast_errOom :
    nextIs (exec (.rxHdrLast 0) (at' .header 7 3 { s1 with cfg := { Config.k0 with dgramBufSize := 6 }, loc := 4 }))
      (fun t => t.phase == .preamble && regs t == (4, 0, 0, 0, 2, .none) && evs t == [(.errOom, [])]) = true := by
  decide

/-- V21: two payload bytes of three; `RX_FTR` still shows the packet before. -/
theorem test_pay :
    nextIs (exec (.burst [0x68, 0x43, 0, 0, 0, 0, 3, 0, 0, 0, 1, 2]) s1)
      (fun t => readReg t 2 == 0x00020002 && readReg t 6 == 0x00000003 && readReg t 7 == 0xA17B8FFE
        && t.buf == [(0, 1), (1, 2)] && t.loc == 0) = true := by
  decide

/-- R163: the last payload byte goes to `LOC + OFFS` and the footer begins. -/
theorem test_payLast :
    nextIs (exec (.rxPayLast 9) (at' .payload 1 2 { s1 with loc := 3 }))
      (fun t => t.buf == [(4, 9)] && t.phase == .footer && t.offs == 0 && t.loc == 3) = true := by
  decide

/-- R164. -/
theorem test_ftr :
    nextIs (exec (.rxFtr 0x68) (at' .footer 2 0 s1))
      (fun t => t.ftr == #v[0xFE, 0x8F, 0x68, 0xA1] && t.offs == 3 && t.phase == .footer) = true := by
  decide

/-- V8: an empty packet, from its footer on. -/
theorem test_ftrLast_ack :
    nextIs (exec (.burst [0x83, 0x82, 0x68, 0x96]) { s1 with phase := .footer, hdr := #v[0, 0, 5, 0, 0, 0, 0, 0] })
      (fun t => t.phase == .preamble && regs t == (0, 0, 5, 0, 0, .none)
        && t.events == [eventOf .ackOnly (hd 0 0 5 0 0) []]) = true := by
  decide +kernel

/-- V10, header corruption: `RESET []` with its code byte 10 read as 00. -/
theorem test_ftrLast_badsum :
    nextIs (exec (.rxFtrLast 0xA1) (at' .footer 3 0 s1))
      (fun t => t.phase == .preamble && regs t == (0, 0, 0, 0, 1, .none)
        && t.events == [eventOf .errChecksum (hd 0 0 0 0 0) []]) = true := by
  decide +kernel

/-! ### Effects: header completion (V4, V7, V8) -/

theorem test_hdrendErrHeader :
    nextIs (exec .hdrendErrHeader (at' .header 7 5 s1)) (fun t => t.localErr == 4 && t.phase == .preamble) = true := by
  decide
theorem test_hdrendErrOom :
    nextIs (exec .hdrendErrOom (at' .header 7 5 s1)) (fun t => t.localErr == 2 && evs t == [(.errOom, [])]) = true := by
  decide
theorem test_hdrendToFooter :
    nextIs (exec .hdrendToFooter (at' .header 7 0 s1)) (fun t => t.phase == .footer && t.offs == 0) = true := by decide
theorem test_hdrendToPayload :
    nextIs (exec .hdrendToPayload (at' .header 7 1 s1)) (fun t => t.phase == .payload && t.offs == 0) = true := by decide

/-! ### Effects: packet classes -/

theorem test_badsum :
    nextIs (exec (.pktBadsum (hd 0 0 0 1 2)) { s1 with loc := 2, expectedSeq := 1 })
      (fun t => regs t == (2, 1, 0, 0, 1, .none) && evs t == [(.errChecksum, [])]) = true := by decide

/-- V19. -/
theorem test_reset :
    nextIs (exec (.pktReset (hd 0 0x10 0x33 0x44 0)) { s1 with loc := 2, expectedSeq := 1, buf := [(0, 1), (1, 2)] })
      (fun t => regs t == (0, 0, 0, 0, 0, .none) && t.events == [eventOf .reset (hd 0 0x10 0x33 0x44 0) []]) = true := by
  decide

/-- V13. -/
theorem test_resetAck :
    nextIs (exec (.pktResetAck (hd 0 0x20 0 0 2)) { s0 with rxAckSeq := 7, buf := [(0, 9), (1, 9)] })
      (fun t => regs t == (0, 0, 0, 0, 0, .none) && evs t == [(.resetAck, [9, 9])]) = true := by decide

/-- V14. -/
theorem test_stray :
    nextIs (exec (.pktResetAckStray (hd 0 0x20 0 0 0)) { s1 with localErr := 5 })
      (fun t => regs t == regs s1 && evs t == [(.dropProto, [])]) = true := by decide
theorem test_ctrlUnfin :
    nextIs (exec (.pktCtrlUnfin (hd 1 0x10 0 0 1)) s1)
      (fun t => regs t == regs s1 && evs t == [(.dropProto, [])]) = true := by decide
theorem test_attrRsvd :
    nextIs (exec (.pktAttrRsvd (hd 0 0xF0 0 0 0)) s1)
      (fun t => regs t == regs s1 && evs t == [(.dropProto, [])]) = true := by decide
theorem test_ackUnfin :
    nextIs (exec (.pktAckUnfin (hd 1 0 4 0 0)) s1)
      (fun t => regs t == regs s1 && evs t == [(.dropProto, [])]) = true := by decide

/-- V17: `seq` 99 of an ack-only packet is ignored. -/
theorem test_ack :
    nextIs (exec (.pktAck (hd 0 5 1 0x99 0)) { s1 with loc := 2, expectedSeq := 1 })
      (fun t => regs t == (2, 1, 1, 5, 0, .none) && evs t == [(.ackOnly, [])]) = true := by decide

/-- V13. -/
theorem test_dataResetting :
    nextIs (exec (.pktDataResetting (hd 0 0 0 0 1)) s0)
      (fun t => regs t == regs s0 && evs t == [(.dropResetting, [])]) = true := by decide

/-- V18. -/
theorem test_dataOrder :
    nextIs (exec (.pktDataOrder (hd 0 0 0x10 2 1)) s1)
      (fun t => regs t == (0, 0, 0, 0, 5, .none) && evs t == [(.errOrder, [])]) = true := by decide

/-- V22: `FRAG 00 06 [01 02]`. -/
theorem test_dataFrag :
    nextIs (exec (.pktDataFrag (hd 1 0 6 0 2)) s1)
      (fun t => regs t == (2, 1, 6, 0, 0, .none) && readReg t 3 == 0x00000601 && readReg t 4 == 2
        && evs t == [(.acceptFragment, [])]) = true := by decide

/-- V16: the sequence number wraps. -/
theorem test_dataFin_wrap :
    nextIs (exec (.pktDataFin (hd 0 0 0 0xFF 1)) { s1 with expectedSeq := 0xFF, loc := 2, buf := [(0, 7), (1, 8), (2, 1)] })
      (fun t => regs t == (0, 0, 0, 0, 0, .none) && evs t == [(.acceptDatagram, [7, 8, 1])]) = true := by decide

/-! ### Effects: host operations -/

/-- V24 at S0: every register after reset, from a state where nothing is at its reset value. -/
theorem test_hardReset :
    nextIs (exec .hardReset { at' .payload 1 2 s1 with
        loc := 3, expectedSeq := 4, rxAckSeq := 5, peerErr := 6, localErr := 7, maxPayload := 9, buf := [(0, 1)] })
      (fun t => (List.range 9).map (readReg t) == [0, 4, 4, 0, 0, 0, 0, 0, 0] && t.buf == []) = true := by decide

/-- V22. -/
theorem test_linkReset :
    nextIs (exec (.cmdLinkReset 3) { s1 with
        phase := .header, offs := 2, loc := 2, expectedSeq := 1, rxAckSeq := 6, hdr := #v[1, 0, 6, 0, 2, 0, 0, 0],
        ftr := #v[0xA8, 0x30, 0x51, 0x89] })
      (fun t => (List.range 8).map (readReg t)
        == [0, 4, 4, 0, 0, 0x00060001, 0x00000002, 0x895130A8]) = true := by decide

/-- V21. -/
theorem test_rxAbort :
    nextIs (exec (.cmdRxAbort 2) (at' .payload 2 3 s1)) (· == at' .preamble 0 3 s1) = true := by decide

/-- V22: `WR 0 FFFFFFFC` changes nothing. -/
theorem test_cmdNop : nextIs (exec (.cmdNop 0xFFFFFFFC) s1) (· == s1) = true := by decide

/-- V23. -/
theorem test_rxCfg :
    nextIs (exec (.csrWriteRxCfg 0x00010004) { s1 with maxPayload := 8 })
      (fun t => readReg t 1 == 0x00000004) = true := by decide

/-- V25. -/
theorem test_ignored : nextIs (exec (.csrWriteIgnored 9 0xFFFFFFFF) s1) (· == s1) = true := by decide

/-- P4: `RD 3 -> 00500001`; the value is returned and nothing else changes. -/
theorem test_csrRead :
    nextIs (exec (.csrRead 3) { s1 with expectedSeq := 1, localErr := 5 })
      (· == { s1 with expectedSeq := 1, localErr := 5, readData := some 0x00500001 }) = true := by decide

/-- R38: all four fields of `RX_SEQ`. -/
theorem test_csrRead_seq :
    readReg { s1 with expectedSeq := 0x12, rxAckSeq := 0x34, peerErr := 5, localErr := 6 } 3 = 0x00653412 := by decide

/-! ### Whole packets -/

/-- S1 is S0 followed by `RESET []`. -/
theorem test_burst_s1 :
    nextIs (exec (.burst [0x68, 0x43, 0, 0x10, 0, 0, 0, 0, 0, 0, 0xFE, 0x8F, 0x7B, 0xA1]) s0)
      (fun t => { t with events := [] } == s1 && evs t == [(.reset, [])]) = true := by decide +kernel

/-- V15: reserved fields are carried and ignored. -/
theorem test_burst_v15 :
    nextIs (exec (.burst [0x68, 0x43, 0xFE, 0x0F, 3, 0, 1, 0, 0xDE, 0xAD, 0x42, 0x99, 0xB9, 0xED, 0x7B]) s1)
      (fun t => regs t == (0, 1, 3, 0xF, 0, .none) && evs t == [(.acceptDatagram, [0x42])]
        && readReg t 5 == 0x00030FFE && readReg t 6 == 0xADDE0001) = true := by decide +kernel

/-- W1: what a conforming peer transmits for `DATA 00 00 [C0 FF EE]`. -/
theorem test_encodePacket :
    encodePacket .crc32 0 0 0 0 [0xC0, 0xFF, 0xEE] 0 0
      = [0x68, 0x43, 0, 0, 0, 0, 3, 0, 0, 0, 0xC0, 0xFF, 0xEE, 0x61, 0x94, 0xA8, 0x68] := by decide +kernel

/-- R107, R108: a script. -/
theorem test_script :
    script .crc32 [.linkReset, .idle 2, .rd 3, .ack 0]
      = [.csrWrite 0 1, .rxByte 0, .rxByte 0, .csrRead 3]
        ++ [0x68, 0x43, 0, 0, 0, 0, 0, 0, 0, 0, 0x30, 0x13, 0xA5, 0xC6].map .rxByte := by decide +kernel

/-! ### Steps -/

/-- R9: one input is consumed, the pulses of the step before are gone. -/
theorem test_step_consumes :
    nextIs (step { s1 with inputs := [.rxByte 0x68, .csrRead 2], events := [eventOf .reset (hd 0 0 0 0 0) []] })
      (· == { s1 with offs := 1, inputs := [.csrRead 2] }) = true := by decide

/-- Table words placed and run right after reset: a byte, a register write, a RESET_ACK of two bytes. -/
theorem test_fetch_byte :
    nextIs (step (State.reset.withFetchWord 8 0x43)) (fun t => t.phase == .header && t.offs == 0) = true := by decide
theorem test_fetch_csr :
    nextIs (step (State.reset.withFetchWord 32 1)) (fun t => t.resetState == .resetting) = true := by decide
theorem test_fetch_pkt :
    nextIs (step (State.reset.withFetchWord 80 0x00000002000020004368))
      (fun t => evs t == [(.resetAck, [0, 0])] && t.resetState == .none) = true := by decide +kernel

/-! ### The invariant holds somewhere -/

theorem witness_inv_reset : State.reset.Inv :=
  ⟨by decide, by decide, by decide, by change _ < _; decide, by decide, by decide⟩

/-- The middle of a payload: two accepted bytes, one payload byte of two. -/
def mid : State := at' .payload 1 2 { s1 with loc := 2, expectedSeq := 1, buf := [(0, 1), (1, 2), (2, 3)] }

theorem witness_inv_payload : mid.Inv :=
  ⟨by decide, by decide, by decide, by change _ ∧ _ ∧ _; decide, by decide, by decide⟩

/-- A footer with its whole payload. -/
def foot : State := at' .footer 0 2 { s1 with loc := 2, expectedSeq := 1, buf := [(0, 1), (1, 2), (2, 3), (3, 4)] }

theorem witness_inv_footer : foot.Inv :=
  ⟨by decide, by decide, by decide, by change _ ∧ _; decide, by decide, by decide⟩

/-- The full buffer: `LOC = DGRAM_BUF_SIZE`, and the smallest configuration. -/
def full : State :=
  { s1 with
    cfg := { Config.k0 with dgramBufSize := 1 }, loc := 1, expectedSeq := 1, buf := [(0, 1)] }

theorem witness_inv_full : full.Inv :=
  ⟨by decide, by decide, by decide, by change _ < _; decide, by decide, by decide⟩

/-! ### Witnesses: each statement's hypotheses can be met, at the ends of their ranges -/

theorem witness_DecodeEncodeIsIdentity :
    ((pktRowsControl ++ pktRowsData) ++ (byteRows ++ (hdrendRows ++ csrRows))).all
      (fun r => r.2.2.wf && selects r.1 r.2.2) = true := by decide
theorem witness_EncodeDecodeIsIdentity :
    decode (s1.ctx true) (.packet (packetWord (hd 0xFF 0xFF 0xFF 0xFF 0xFFFF)))
      = .ok (.pktAttrRsvd (hd 0xFF 0xFF 0xFF 0xFF 0xFFFF)) := by decide
theorem witness_EveryByteSelectsExactlyOne :
    (at' .preamble 0 0 s1).posOk ∧ (at' .preamble 1 0 s1).posOk ∧ (at' .header 0 0 s1).posOk ∧
      (at' .header 7 0 s1).posOk ∧ (at' .payload 0 1 s1).posOk ∧ (at' .payload 15 16 s1).posOk ∧
      (at' .footer 0 0 s1).posOk ∧ (at' .footer 3 16 s1).posOk := by
  change _ < _ ∧ _ < _ ∧ _ < _ ∧ _ < _ ∧ (_ ∧ _ ∧ _) ∧ (_ ∧ _ ∧ _) ∧ (_ ∧ _) ∧ (_ ∧ _)
  decide
theorem witness_HeaderSelectsItsClass :
    (pktRowsControl ++ pktRowsData).all (fun r => r.2.2.wf && selects r.1 r.2.2) = true ∧
      (hd 0 0x3F 0 0 0).attr = 3 ∧ (hd 1 0xF0 0 0 1).attr = 15 := by decide
theorem witness_RegisterWriteSelects :
    (3 : Word).getLsbD 0 = true ∧ ((2 : Word).getLsbD 0 = false ∧ (2 : Word).getLsbD 1 = true) ∧
      ((0xFFFFFFFC : Word).getLsbD 0 = false ∧ (0xFFFFFFFC : Word).getLsbD 1 = false) ∧ 2 ≤ 2 := by decide
theorem witness_ByteValueMattersOnlyInPreamble : Phase.header ≠ .preamble := by decide
theorem witness_StepPerformsDecodedInput :
    (s1.withInputs [.rxByte 0x68]).inputs = .rxByte 0x68 :: [] ∧
      decode ((s1.withInputs [.rxByte 0x68]).ctx false) (.input (.rxByte 0x68)) = .ok .rxPre0Hit := by decide
theorem witness_NoInputChangesNothing : s1.inputs = [] := by decide

/-- The state that `RX.FTR.LAST` judges. -/
def judged (s : State) (b : Byte) : State :=
  { s with ftr := s.ftr.setIfInBounds 3 b, phase := .preamble, offs := 0 }

/-- `verify` as a comparable value. -/
def verifyIs (s : State) (v : Bool) : Bool :=
  match verify s with
  | .ok w => w == v
  | .error _ => false

theorem verify_of_verifyIs {s : State} {v : Bool} (h : verifyIs s v = true) : verify s = .ok v := by
  unfold verifyIs at h
  cases e : verify s with
  | ok w => rw [e] at h; simp at h; rw [h]
  | error f => rw [e] at h; simp at h

theorem witness_FooterLastPerformsItsClass_verified :
    verify (judged { s1 with phase := .footer, offs := 3 } 0xA1) = .ok true :=
  verify_of_verifyIs (by decide +kernel)
theorem witness_FooterLastPerformsItsClass_corrupt :
    verify (judged { s1 with phase := .footer, offs := 3 } 0xA0) = .ok false :=
  verify_of_verifyIs (by decide +kernel)
theorem witness_MarkerSearchMovesOnlyThePosition :
    (at' .preamble 0 0 s1).phase = .preamble ∧ (at' .preamble 0 0 s1).offs = 0 ∧
      (at' .preamble 1 0 s1).phase = .preamble ∧ (at' .preamble 1 0 s1).offs = 1 := by decide
theorem witness_HeaderByteIsCaptured :
    (at' .header 0 0 s1).offs.toNat ≤ 6 ∧ (at' .header 6 0 s1).offs.toNat ≤ 6 := by decide

/-- One state for each end of a header, at the boundary of its test: 5 > 4; 13 + 4 > 16; 16 + 0 ≤ 16;
12 + 4 ≤ 16. -/
theorem witness_HeaderLastHasFourEnds :
    ((at' .header 7 5 s1).header.length.toNat > s1.maxPayload.toNat) ∧
    ((at' .header 7 4 s1).header.length.toNat ≤ s1.maxPayload.toNat ∧
      13 + (at' .header 7 4 s1).header.length.toNat > s1.cfg.dgramBufSize) ∧
    ((at' .header 7 0 s1).header.length.toNat ≤ s1.maxPayload.toNat ∧
      16 + (at' .header 7 0 s1).header.length.toNat ≤ s1.cfg.dgramBufSize ∧
      (at' .header 7 0 s1).header.length.toNat = 0) ∧
    ((at' .header 7 4 s1).header.length.toNat ≤ s1.maxPayload.toNat ∧
      12 + (at' .header 7 4 s1).header.length.toNat ≤ s1.cfg.dgramBufSize ∧
      (at' .header 7 4 s1).header.length.toNat ≥ 1) := by decide
theorem witness_PayloadByteIsStored :
    (at' .payload 3 4 { s1 with loc := 12 }).loc.toNat + (at' .payload 3 4 s1).offs.toNat < s1.cfg.dgramBufSize := by
  decide
theorem witness_PayloadStoreOutsideBufferStops :
    s1.cfg.dgramBufSize ≤ (at' .payload 3 4 { s1 with loc := 13 }).loc.toNat + (at' .payload 3 4 s1).offs.toNat := by
  decide
theorem witness_FooterByteIsCaptured :
    (at' .footer 0 0 s1).offs.toNat ≤ 2 ∧ (at' .footer 2 0 s1).offs.toNat ≤ 2 := by decide
theorem witness_HoldingIndexOutsideRegisterStops :
    8 ≤ (at' .header 8 0 s1).offs.toNat ∧ 4 ≤ (at' .footer 4 0 s1).offs.toNat := by decide
theorem witness_FooterLastAlwaysJudges :
    ∀ a < foot.loc.toNat + foot.header.length.toNat,
      a < foot.cfg.dgramBufSize ∧ (Memory.read foot.buf a).isSome = true := by decide
theorem witness_ControlPacketsResetTheLink :
    memRead foot foot.loc.toNat (hd 0 0x10 0 0 2).length.toNat = .ok [3, 4] ∧
      memRead full full.loc.toNat (hd 0 0x10 0 0 0).length.toNat = .ok [] := ⟨rfl, rfl⟩
theorem witness_FragmentIsAccepted : foot.loc.toNat + (hd 1 0 0 1 2).length.toNat < 2 ^ 32 := by decide
theorem witness_DatagramIsDelivered :
    memRead foot 0 (foot.loc.toNat + (hd 0 0 0 1 2).length.toNat) = .ok [1, 2, 3, 4] := rfl
theorem witness_UnreadablePayloadStops :
    memRead s1 s1.loc.toNat (hd 0 0x10 0 0 1).length.toNat = .error .bufUnwritten ∧
      memRead full full.loc.toNat (hd 0 0x10 0 0 1).length.toNat = .error .bufOutOfRange ∧
      memRead mid 0 (mid.loc.toNat + (hd 0 0 0 1 2).length.toNat) = .error .bufUnwritten := ⟨rfl, rfl, rfl⟩
theorem witness_CorruptedPacketIsRejected_read :
    memRead (at' .footer 3 0 s1) s1.loc.toNat (at' .footer 3 0 s1).header.length.toNat = .ok [] := rfl
theorem witness_CorruptedPacketIsRejected_sum :
    rxsum ((at' .footer 3 0 s1).ftr.setIfInBounds 3 0xA1)
      ≠ checksum s1.cfg.checksum ([0x68, 0x43] ++ (at' .footer 3 0 s1).hdr.toList ++ []) := by decide +kernel

/-- A burst that completes, one that faults, one that is refused. -/
theorem witness_BurstDependsOnConcatenation :
    exec (.burst [0]) s1 = .next s1 ∧
      exec (.burst [0]) (at' .payload 0 2 { s1 with loc := 16 }) = .fault .bufOutOfRange ∧
      exec (.burst [0]) (at' .preamble 2 0 s1) = .refused .noOperation := ⟨rfl, rfl, rfl⟩
theorem witness_BurstIsItsByteSteps :
    exec (.burst [0x68, 0x43]) { s1 with inputs := [.csrRead 2], events := [], readData := none }
      = .next { s1 with inputs := [.csrRead 2], events := [], readData := none, phase := .header, offs := 0 } := rfl
theorem witness_IdleBytesChangeNothing :
    s1.phase = .preamble ∧ s1.offs = 0 ∧ (0x68 : Byte) ∉ [(0 : Byte), 0x43] := by decide
theorem witness_AttemptEndsAfterDeclaredBytes :
    (mid.phase = .payload ∧ [(4 : Byte), 0, 0, 0, 0].length = mid.header.length.toNat - mid.offs.toNat + 4) ∧
      (foot.phase = .footer ∧ [(0 : Byte), 0, 0, 0].length = 4 - foot.offs.toNat) := by decide
theorem witness_ResetMeetsInvariant :
    ({ Config.k0 with dgramBufSize := 1 } : Config).wf = true ∧
      ({ Config.k0 with dgramBufSize := 2 ^ 32 - 1 } : Config).wf = true := by decide
theorem witness_EveryStepKeepsInvariant :
    mid.Inv ∧ step mid = .next mid := ⟨witness_inv_payload, rfl⟩
theorem witness_NoStepStops : foot.Inv := witness_inv_footer
theorem witness_ConfigurationIsFixed : step s1 = .next s1 := rfl
theorem witness_ResettingIsEnteredOnlyByReset :
    step (s1.withInputs [.csrWrite 0 1]) = .next (linkReset s1) ∧ s1.resetState = .none ∧
      (linkReset s1).resetState = .resetting := ⟨rfl, rfl, rfl⟩
theorem witness_ResettingIsLeftOnlyByControlPacket :
    s0.resetState = .resetting ∧
      nextIs (step { s0 with
          phase := .footer, offs := 3, hdr := s1.hdr, ftr := #v[0xFE, 0x8F, 0x7B, 0], inputs := [.rxByte 0xA1] })
        (fun t => t.resetState == .none) = true := by decide +kernel
theorem witness_WritersOfHdrAndLoc_hdr :
    nextIs (step ((at' .header 0 0 s1).withInputs [.rxByte 1])) (fun t => t.hdr != (at' .header 0 0 s1).hdr) = true := by
  decide
theorem witness_WritersOfHdrAndLoc_loc :
    nextIs (step (foot.withInputs [.csrWrite 0 1])) (fun t => t.loc != foot.loc) = true := by decide
theorem witness_OnlyTheHostSetsMaxPayload :
    nextIs (step (s1.withInputs [.csrWrite 1 8])) (fun t => t.maxPayload != s1.maxPayload) = true := by decide
theorem witness_ResponseOfAStep :
    step (s1.withInputs [.csrRead 1]) = .next { s1 with readData := some 4 } ∧ step s1 = .next s1 := ⟨rfl, rfl⟩
theorem witness_OneEventPerPacketAttempt :
    (at' .header 7 5 s1).header.length.toNat > s1.maxPayload.toNat ∧
      nextIs (step ((at' .header 7 5 s1).withInputs [.rxByte 0])) (fun t => t.events.length == 1) = true ∧
      nextIs (step (s1.withInputs [.rxByte 0])) (fun t => t.events.length == 0) = true := by decide
theorem witness_RejectionAdvancesNothing :
    nextIs (step ((at' .header 7 5 s1).withInputs [.rxByte 0]))
      (fun t => t.events.any fun e => !e.disp.isAccept) = true := by decide
theorem witness_AcceptedFragmentsAreKept :
    nextIs (step (mid.withInputs [.rxByte 9])) (fun t => Memory.read t.buf 3 == some 9) = true ∧
      1 < mid.loc.toNat := by decide
theorem witness_DuplicateIsOutOfOrder :
    (hd 1 0 0 1 2).isData = true ∧ foot.resetState = .none ∧
      nextIs (exec (.pktDataFrag (hd 1 0 0 1 2)) foot) (fun _ => true) = true ∧
      nextIs (exec (.pktDataFin (hd 0 0 0 1 2)) foot) (fun _ => true) = true := by decide

/-- `foot` between packets, so that a packet of 4 bytes may follow its 12 accepted ones. -/
def twelve : State :=
  { s1 with
    loc := 12, expectedSeq := 3,
    buf := [(0, 1), (1, 1), (2, 1), (3, 1), (4, 1), (5, 1)] ++ [(6, 1), (7, 1), (8, 1), (9, 1), (10, 1), (11, 2)] }

theorem witness_inv_twelve : twelve.Inv :=
  ⟨by decide, by decide, by decide, by change _ < _; decide, by decide, by decide⟩

/-- Both bounds met with equality. -/
theorem witness_PacketRoundTrip :
    twelve.phase = .preamble ∧ [(1 : Byte), 2, 3, 4].length ≤ twelve.maxPayload.toNat ∧
      twelve.loc.toNat + [(1 : Byte), 2, 3, 4].length ≤ twelve.cfg.dgramBufSize := by decide
theorem witness_FragmentIsAppended :
    twelve.resetState = .none ∧ memRead twelve 0 twelve.loc.toNat = .ok [1, 1, 1, 1, 1, 1, 1, 1, 1, 1, 1, 2] ∧
      1 ≤ [(1 : Byte), 2, 3, 4].length ∧ (0x0F : Byte).extractLsb' 4 4 = (0 : Nibble) ∧
      (0xFF : Byte).getLsbD 0 = true := ⟨rfl, rfl, by decide, by decide, by decide⟩
theorem witness_DatagramIsReassembled :
    (0x0F : Byte).extractLsb' 4 4 = (0 : Nibble) ∧ (0xFE : Byte).getLsbD 0 = false ∧
      memRead s1 0 s1.loc.toNat = .ok [] ∧ s1.resetState = .none := ⟨by decide, by decide, rfl, rfl⟩

end Sys2Proof.Tests
end

section
/-! PROOFS. The statements of 00_scope: what `MemRead` answers, and the response of a step. -/

namespace Sys2Proof.Machine

/-! ### `MemRead` (R8) -/

/-- A read of one byte and more starts with the byte at `a` and goes on at `a + 1`. -/
theorem memRead_cons_ok {s : State} {a n : Nat} {b : Byte} {bs : List Byte} :
    memRead s a (n + 1) = .ok (b :: bs) ↔ readBuf s a = .ok b ∧ memRead s (a + 1) n = .ok bs := by
  simp [memRead_succ_ok]

/-- Settles O30, by induction on the count: the first byte is `readBuf`'s, the others are the read's
from `a + 1` on. -/
theorem memReadIsTheByteList : Obligations.MemReadIsTheByteList := by
  intro s a n bs
  induction n generalizing a bs with
  | zero => simp [eq_comm (a := ([] : List Byte))]
  | succ n ih =>
    cases bs with
    | nil => simp [memRead_succ_ok]
    | cons b bs =>
      have later (i : Nat) : a + 1 + i = a + (i + 1) := by omega
      rw [memRead_cons_ok, readBuf_ok, ih, Nat.forall_lt_succ_left]
      simp only [List.length_cons, Nat.add_right_cancel_iff, Nat.add_zero, later,
        List.getElem?_cons_zero, List.getElem?_cons_succ]
      exact and_left_comm

/-! ### The response of a step (R9) -/

/-- Settles O10: taking the input changes nothing that `decode` reads. -/
theorem stepPerformsDecodedInput : Obligations.StepPerformsDecodedInput := by
  intro s i rest ins hi hd
  have hctx : State.ctx { s with inputs := rest, events := [], readData := none } false =
      s.ctx false := rfl
  simp only [step, fetch, hi, hctx, hd]

/-- What a step can do, by the input it takes: be idle, or perform the meaning of one of the four
inputs of R9. -/
theorem step_cases_input {s t : State} (h : step s = .next t) :
    (s.inputs = [] ∧ t = idle s) ∨
    (∃ b rest, s.inputs = .rxByte b :: rest ∧
      rxByte b { s with inputs := rest, events := [], readData := none } = .next t) ∨
    (∃ rest, s.inputs = .hardReset :: rest ∧
      t = { State.resetWith s.cfg with inputs := rest }) ∨
    (∃ n v rest, s.inputs = .csrWrite n v :: rest ∧
      exec (csrWriteInstr n v) { s with inputs := rest, events := [], readData := none } = .next t) ∨
    (∃ n rest, s.inputs = .csrRead n :: rest ∧
      t = { s with inputs := rest, events := [], readData := some (readReg s n) }) := by
  cases hi : s.inputs with
  | nil =>
    obtain ⟨-, ht⟩ | ⟨i, rest, -, hne, -⟩ := step_cases h
    · exact .inl ⟨rfl, ht⟩
    · simp [hi] at hne
  | cons i rest =>
    rw [step_of_input hi] at h
    cases i with
    | rxByte b => exact .inr (.inl ⟨b, rest, rfl, h⟩)
    | hardReset => cases h; exact .inr (.inr (.inl ⟨rest, rfl, rfl⟩))
    | csrWrite n v => exact .inr (.inr (.inr (.inl ⟨n, v, rest, rfl, h⟩)))
    | csrRead n => cases h; exact .inr (.inr (.inr (.inr ⟨n, rest, rfl, rfl⟩)))

/-- A register write leaves the configuration and the ports alone. -/
theorem csrWrite_ports {n : Nat} {v : Word} {s t : State}
    (h : exec (csrWriteInstr n v) s = .next t) :
    t.cfg = s.cfg ∧ t.inputs = s.inputs ∧ t.events = s.events ∧ t.readData = s.readData := by
  obtain ⟨u, hu, hcases⟩ := exec_csrWriteInstr (n := n) (v := v) (s := s)
  cases hu.symm.trans h
  obtain ⟨-, -, rfl⟩ | ⟨-, rfl⟩ | rfl | ⟨-, rfl⟩ := hcases <;> simp

/-- A received byte leaves the configuration, the inputs to come and the read data alone, and puts at
most one event on the port. -/
theorem rxByte_ports {b : Byte} {s t : State} (h : rxByte b s = .next t) :
    t.cfg = s.cfg ∧ t.inputs = s.inputs ∧ t.readData = s.readData ∧
      t.events.length ≤ s.events.length + 1 := by
  obtain ⟨hcfg, -, hin, hrd, -, -, -, hev⟩ := rxByte_frame h
  refine ⟨hcfg, hin, hrd, ?_⟩
  obtain ⟨hev, -⟩ | ⟨e, hev, -⟩ := hev <;> simp [hev]

/-- Settles O44: no input's meaning writes the configuration; `HARD_RESET` starts again from it. -/
theorem configurationIsFixed : Obligations.ConfigurationIsFixed := by
  intro s t h
  obtain ⟨-, rfl⟩ | ⟨b, rest, -, hb⟩ | ⟨rest, -, rfl⟩ | ⟨n, v, rest, -, hw⟩ | ⟨n, rest, -, rfl⟩ :=
    step_cases_input h
  · exact idle_cfg s
  · exact (rxByte_ports hb).1
  · exact resetWith_cfg s.cfg
  · exact (csrWrite_ports hw).1
  · rfl

/-- The ports after a step: at most one event, the input taken gone, a value exactly for
`CSR_READ`. -/
theorem step_ports {s t : State} (h : step s = .next t) :
    t.events.length ≤ 1 ∧ t.inputs = s.inputs.tail ∧
      (t.readData.isSome = true ↔ ∃ n rest, s.inputs = .csrRead n :: rest) := by
  obtain ⟨hi, rfl⟩ | ⟨b, rest, hi, hb⟩ | ⟨rest, hi, rfl⟩ | ⟨n, v, rest, hi, hw⟩ | ⟨n, rest, hi, rfl⟩ :=
    step_cases_input h
  · simp [hi]
  · obtain ⟨-, hin, hrd, hev⟩ := rxByte_ports hb
    exact ⟨hev, by simp [hin, hi], by simp [hrd, hi]⟩
  · simp [hi]
  · obtain ⟨-, hin, hev, hrd⟩ := csrWrite_ports hw
    simp [hin, hev, hrd, hi]
  · simp [hi]

/-- Settles O49: the four constructors of `Input`, and the ports after a step. -/
theorem responseOfAStep : Obligations.ResponseOfAStep := by
  refine ⟨fun i => ?_, fun s t => step_ports⟩
  cases i with
  | rxByte b => exact .inl ⟨b, rfl⟩
  | hardReset => exact .inr (.inl rfl)
  | csrWrite n v => exact .inr (.inr (.inl ⟨n, v, rfl⟩))
  | csrRead n => exact .inr (.inr (.inr ⟨n, rfl⟩))

end Sys2Proof.Machine
end

section
/-! PROOFS. The statements of 10_state: the invariant over a step and over a burst, who writes the
mode, `HDR`, `LOC` and `MAX_PAYLOAD`, and when an event is emitted. -/

namespace Sys2Proof.Machine

/-! ### What one input leaves unchanged -/

/-- What a register write can do (R221 to R226): enter the link reset, abort the attempt, change
nothing, or set `MAX_PAYLOAD`. -/
theorem csrWrite_cases {n : Nat} {v : Word} {s t : State}
    (h : exec (csrWriteInstr n v) s = .next t) :
    (n = 0 ∧ v.getLsbD 0 = true ∧ t = linkReset s) ∨ (n = 0 ∧ t = s.setPos .preamble 0) ∨ t = s ∨
      (n = 1 ∧ t = { s with maxPayload := v.extractLsb' 0 16 }) := by
  obtain ⟨u, hu, hcases⟩ := exec_csrWriteInstr (n := n) (v := v) (s := s)
  cases hu.symm.trans h
  exact hcases

/-- A received byte changes the mode only to NONE, with a RESET or RESET_ACK event among those it
leaves (R257). -/
theorem rxByte_resetState {b : Byte} {s t : State} (h : rxByte b s = .next t) :
    t.resetState = s.resetState ∨
      (t.resetState = .none ∧ ∃ e ∈ t.events, e.disp = .reset ∨ e.disp = .resetAck) := by
  obtain ⟨-, -, -, -, -, -, -, ⟨-, hmode, -⟩ | ⟨e, hev, hmode, -⟩⟩ := rxByte_frame h
  · exact .inl hmode
  · exact hmode.imp_right fun ⟨hnone, hd⟩ => ⟨hnone, e, by simp [hev], hd⟩

/-- With the pulses gone, a received byte puts an event on the port exactly where it ends a packet
attempt: at footer completion or at a header-stage error (R43, R254). -/
theorem rxByte_events_ne_nil {b : Byte} {s t : State} (h : rxByte b s = .next t)
    (hs : s.events = []) :
    t.events ≠ [] ↔ s.phase = .footer ∧ s.offs = 3 ∨
      s.phase = .header ∧ s.offs = 7 ∧
        (s.header.length.toNat > s.maxPayload.toNat ∨
          s.loc.toNat + s.header.length.toNat > s.cfg.dgramBufSize) := by
  obtain ⟨-, -, -, -, -, -, -, ⟨hev, -, hgoes⟩ | ⟨e, hev, -, hends, -⟩⟩ := rxByte_frame h
  · exact iff_of_false (by simp [hev, hs]) hgoes
  · exact iff_of_true (by simp [hev]) hends

/-! ### The invariant (R46, R74) -/

/-- The state after reset meets the invariant, whatever the inputs to come. -/
theorem inv_resetWith {cfg : Config} (hc : cfg.wf = true) (inputs : List Input) :
    State.Inv { State.resetWith cfg with inputs := inputs } where
  cfgWf := hc
  bufWf := Memory.reset_wf cfg
  bufIn := by simp
  pos := by simp [State.posOk]
  locLe := by simp
  written := by simp [State.filled]

/-- A register write keeps the invariant: it moves the parser only back to the marker search, and
`LOC` only to 0. -/
theorem inv_csrWrite {n : Nat} {v : Word} {s t : State} (hi : s.Inv)
    (h : exec (csrWriteInstr n v) s = .next t) : t.Inv := by
  obtain ⟨-, -, rfl⟩ | ⟨-, rfl⟩ | rfl | ⟨-, rfl⟩ := csrWrite_cases h
  · exact inv_of_init hi rfl rfl rfl (by simp) (.inl rfl)
  · exact inv_of_init hi rfl rfl rfl (by simp) (.inr rfl)
  · exact hi
  · exact ⟨hi.cfgWf, hi.bufWf, hi.bufIn, hi.pos, hi.locLe, hi.written⟩

/-- Settles O41: nothing is listed in the memory and nothing is held in it. -/
theorem resetMeetsInvariant : Obligations.ResetMeetsInvariant :=
  ⟨fun _ hc => inv_resetWith hc [], inv_resetWith (cfg := .k0) (by decide) []⟩

/-- Settles O42, by the input that the step takes. -/
theorem everyStepKeepsInvariant : Obligations.EveryStepKeepsInvariant := by
  intro s t hi h
  obtain ⟨-, rfl⟩ | ⟨b, rest, -, hb⟩ | ⟨rest, -, rfl⟩ | ⟨n, v, rest, -, hw⟩ | ⟨n, rest, -, rfl⟩ :=
    step_cases_input h
  · exact inv_ports hi s.inputs [] none
  · exact inv_rxByte (inv_ports hi rest [] none) hb
  · exact inv_resetWith hi.cfgWf rest
  · exact inv_csrWrite (inv_ports hi rest [] none) hw
  · exact inv_ports hi rest [] (some (readReg s n))

/-- Settles O38, by induction on the bytes: under the invariant the first byte completes and keeps it,
and the rest goes on from there. -/
theorem burstAlwaysCompletes : Obligations.BurstAlwaysCompletes := by
  intro s bs hi
  induction bs generalizing s with
  | nil => exact ⟨s, rfl, hi⟩
  | cons b bs ih =>
    obtain ⟨u, hu⟩ := rxByte_completes b hi
    obtain ⟨t, ht, hti⟩ := ih u (inv_rxByte hi hu)
    exact ⟨t, execBurst_cons_next.2 ⟨u, hu, ht⟩, hti⟩

/-! ### Who changes the mode (R30, R257) -/

/-- What a step can do to the mode: keep it, leave RESETTING by a byte with the event that says so, or
enter RESETTING by a reset. -/
theorem step_resetState {s t : State} (h : step s = .next t) :
    t.resetState = s.resetState ∨
      (t.resetState = .none ∧ (∃ e ∈ t.events, e.disp = .reset ∨ e.disp = .resetAck) ∧
        ∃ b rest, s.inputs = .rxByte b :: rest) ∨
      (t.resetState = .resetting ∧ ∃ rest, s.inputs = .hardReset :: rest ∨
        ∃ v : Word, v.getLsbD 0 = true ∧ s.inputs = .csrWrite 0 v :: rest) := by
  obtain ⟨-, rfl⟩ | ⟨b, rest, hi, hb⟩ | ⟨rest, hi, rfl⟩ | ⟨n, v, rest, hi, hw⟩ | ⟨n, rest, -, rfl⟩ :=
    step_cases_input h
  · exact .inl rfl
  · obtain hkeep | ⟨hnone, hev⟩ := rxByte_resetState hb
    · exact .inl hkeep
    · exact .inr (.inl ⟨hnone, hev, b, rest, hi⟩)
  · exact .inr (.inr ⟨rfl, rest, .inl hi⟩)
  · obtain ⟨rfl, hv, rfl⟩ | ⟨-, rfl⟩ | rfl | ⟨-, rfl⟩ := csrWrite_cases hw
    · exact .inr (.inr ⟨rfl, rest, .inr ⟨v, hv, hi⟩⟩)
    all_goals exact .inl rfl
  · exact .inl rfl

/-- Settles O45: of the three things a step can do to the mode, only a reset ends in RESETTING from
NONE. -/
theorem resettingIsEnteredOnlyByReset : Obligations.ResettingIsEnteredOnlyByReset := by
  intro s t h hs ht
  obtain hkeep | ⟨hnone, -, -⟩ | ⟨-, hinput⟩ := step_resetState h
  · simp [hs, ht] at hkeep
  · simp [ht] at hnone
  · exact hinput

/-- Settles O46: of the three things a step can do to the mode, only a byte with its event ends in NONE
from RESETTING. -/
theorem resettingIsLeftOnlyByControlPacket : Obligations.ResettingIsLeftOnlyByControlPacket := by
  intro s t h hs ht
  obtain hkeep | ⟨-, hbyte⟩ | ⟨hresetting, -⟩ := step_resetState h
  · simp [hs, ht] at hkeep
  · exact hbyte
  · simp [ht] at hresetting

/-! ### Who writes `HDR`, `LOC` and `MAX_PAYLOAD` (R31, R46) -/

/-- Settles O47: a byte writes `HDR` in HEADER and `LOC` at footer completion, a register write writes
`LOC` as `LINK_RESET` only. -/
theorem writersOfHdrAndLoc : Obligations.WritersOfHdrAndLoc := by
  intro s t i rest hi h
  rw [step_of_input hi] at h
  cases i with
  | rxByte b =>
    obtain ⟨-, -, -, -, hhdr, hloc, -⟩ := rxByte_frame h
    exact ⟨fun hne => .inr ⟨hhdr hne, b, rfl⟩,
      fun hne => let ⟨hp, ho⟩ := hloc hne; .inr (.inr ⟨hp, ho, b, rfl⟩)⟩
  | hardReset => exact ⟨fun _ => .inl rfl, fun _ => .inl rfl⟩
  | csrWrite n v =>
    obtain ⟨rfl, hv, rfl⟩ | ⟨-, rfl⟩ | rfl | ⟨-, rfl⟩ := csrWrite_cases h
    · exact ⟨fun hne => absurd rfl hne, fun _ => .inr (.inl ⟨v, hv, rfl⟩)⟩
    all_goals exact ⟨fun hne => absurd rfl hne, fun hne => absurd rfl hne⟩
  | csrRead n => cases h; exact ⟨fun hne => absurd rfl hne, fun hne => absurd rfl hne⟩

/-- Settles O48: of the register writes only `RX_CFG` writes `MAX_PAYLOAD`, and no byte does. -/
theorem onlyTheHostSetsMaxPayload : Obligations.OnlyTheHostSetsMaxPayload := by
  intro s t h hne
  obtain ⟨-, rfl⟩ | ⟨b, rest, -, hb⟩ | ⟨rest, hi, -⟩ | ⟨n, v, rest, hi, hw⟩ | ⟨n, rest, -, rfl⟩ :=
    step_cases_input h
  · exact absurd rfl hne
  · obtain ⟨-, hkeep, -⟩ := rxByte_frame hb
    exact absurd hkeep hne
  · exact ⟨rest, .inl hi⟩
  · obtain ⟨-, -, rfl⟩ | ⟨-, rfl⟩ | rfl | ⟨rfl, -⟩ := csrWrite_cases hw
    · exact absurd rfl hne
    · exact absurd rfl hne
    · exact absurd rfl hne
    · exact ⟨rest, .inr ⟨v, hi⟩⟩
  · exact absurd rfl hne

/-! ### Events (R43, R254) -/

/-- Settles O50: only a byte puts an event on the port, and it does so where it ends an attempt. -/
theorem oneEventPerPacketAttempt : Obligations.OneEventPerPacketAttempt := by
  intro s t i rest hi h
  obtain ⟨hone, -, -⟩ := step_ports h
  refine ⟨hone, ?_⟩
  rw [step_of_input hi] at h
  cases i with
  | rxByte b =>
    have hends := rxByte_events_ne_nil h rfl
    exact hends.trans ⟨fun he => ⟨b, rfl, he⟩, fun ⟨_, _, he⟩ => he⟩
  | hardReset => cases h; simp
  | csrWrite n v =>
    obtain ⟨-, -, hev, -⟩ := csrWrite_ports h
    simp [hev]
  | csrRead n => cases h; simp

/-! ### Positions outside R46 -/

/-- A store past `HDR[7]` stops. -/
theorem setHdr_of_le {s : State} {i : Nat} (b : Byte) (h : hdrLen ≤ i) :
    s.setHdr i b = .error .holdingIndex := dif_neg (Nat.not_lt.2 h)

/-- A store past `FTR[3]` stops. -/
theorem setFtr_of_le {s : State} {i : Nat} (b : Byte) (h : ftrLen ≤ i) :
    s.setFtr i b = .error .holdingIndex := dif_neg (Nat.not_lt.2 h)

/-- Settles O21: the store into the holding register stops, and with it the operation. -/
theorem holdingIndexOutsideRegisterStops : Obligations.HoldingIndexOutsideRegisterStops := by
  refine fun s b => ⟨fun h => ?_, fun h => ?_⟩
  · simp only [exec, execRxHdr, setHdr_of_le b h, whenOk_error]
  · simp only [exec, execRxFtr, setFtr_of_le b h, whenOk_error]

end Sys2Proof.Machine
end

section
/-! PROOFS. The statements of 20_memory: what never writes `BUF` below `LOC`, and where an access to
`BUF` stops. -/

namespace Sys2Proof.Machine

/-! ### The accepted fragments (R69) -/

/-- A register write leaves `BUF` alone. -/
theorem csrWrite_buf {n : Nat} {v : Word} {s t : State}
    (h : exec (csrWriteInstr n v) s = .next t) : t.buf = s.buf := by
  obtain ⟨-, -, rfl⟩ | ⟨-, rfl⟩ | rfl | ⟨-, rfl⟩ := csrWrite_cases h
  · exact linkReset_buf s
  · exact setPos_buf s .preamble 0
  · rfl
  · rfl

/-- Settles O52, by the input taken: a payload byte goes to `LOC + OFFS`, which is not below `LOC`, and
the register accesses write no byte of `BUF`. -/
theorem acceptedFragmentsAreKept : Obligations.AcceptedFragmentsAreKept := by
  intro s t i rest hi hne h a ha
  rw [step_of_input hi] at h
  cases i with
  | rxByte b =>
    obtain ⟨-, -, -, -, -, -, hkept, -⟩ := rxByte_frame h
    exact hkept a ha
  | hardReset => exact absurd rfl hne
  | csrWrite n v => rw [csrWrite_buf h]
  | csrRead n => cases h; rfl

/-! ### Where a store or a read stops (R60, R67, R74) -/

/-- A store at an address that does not exist stops. -/
theorem memWrite_of_le {s : State} {a : Nat} (b : Byte) (h : s.cfg.dgramBufSize ≤ a) :
    memWrite s a b = .error .bufOutOfRange := if_neg (Nat.not_lt.2 h)

/-- Settles O19: the store stops, and with it the operation. -/
theorem payloadStoreOutsideBufferStops : Obligations.PayloadStoreOutsideBufferStops := by
  refine fun s b h => ⟨?_, ?_⟩
  · simp only [exec, execRxPay, memWrite_of_le b h, whenOk_error]
  · simp only [exec, execRxPayLast, memWrite_of_le b h, whenOk_error]

/-- Settles O29: the read is the first thing each of the three classes does, so its fault is theirs. -/
theorem unreadablePayloadStops : Obligations.UnreadablePayloadStops := by
  refine fun s h f => ⟨fun hread => ⟨?_, ?_⟩, fun hread => ?_⟩
  · simp only [exec, execPktReset, hread, whenOk_error]
  · simp only [exec, execPktResetAck, hread, whenOk_error]
  · simp only [exec, execPktDataFin, hread, whenOk_error]

end Sys2Proof.Machine
end

section
/-! PROOFS. The statements of 30_encoding section 3: the operation map and the encoder agree. -/

namespace Sys2Proof

/-! ### Byte operations (R104) -/

/-- The operation chosen for a byte is a row that admits it, is selected, and has it as its code:
phase by phase, the tests of R104 are the conditions of the rows. -/
theorem selects_of_byteOp {c : Ctx} {b : Byte} {op : ByteOp}
    (h : byteOp c.phase c.offs c.length b = some op) :
    (op.instr b).wf = true ∧ selects c (op.instr b) = true ∧
      encode (op.instr b) = .input (.rxByte b) := by
  have hzero : c.offs = 0 ↔ c.offs.toNat = 0 := by simp [← BitVec.toNat_inj]
  unfold byteOp at h
  cases hp : c.phase with
  | preamble =>
    simp only [hp] at h
    split_ifs at h <;> cases h <;> simp_all [ByteOp.instr, Instr.wf, selects, encode]
  | header | payload | footer =>
    simp only [hp] at h
    split_ifs at h <;> cases h <;> simp_all [ByteOp.instr, Instr.wf, selects, encode]

/-- A row of R104 that admits a byte and is selected is the one chosen for it. -/
theorem byteOp_of_selects {c : Ctx} {b : Byte} {op : ByteOp} (hw : (op.instr b).wf = true)
    (hs : selects c (op.instr b) = true) (he : encode (op.instr b) = .input (.rxByte b)) :
    byteOp c.phase c.offs c.length b = some op := by
  have hmarker : preamble0 ≠ preamble1 := by decide
  cases op with
  | pre0Hit | pre0Skip | pre1Hit | pre1Retry | pre1Miss =>
    simp_all [ByteOp.instr, Instr.wf, selects, encode, byteOp, preLen, eq_comm (b := b)]
  | hdr | hdrLast | pay | payLast | ftr | ftrLast => simp_all [ByteOp.instr, selects, byteOp]

/-! ### Header completion (R157) -/

/-- An outcome is chosen exactly where its row is selected. -/
theorem hdrEnd_eq_iff {c : Ctx} {e : HdrEnd} :
    hdrEnd c.length c.maxPayload c.loc c.dgramBufSize = e ↔ selects c e.instr = true := by
  have hzero : c.length.toNat = 0 ↔ c.length = 0 := by simp [← BitVec.toNat_inj]
  unfold hdrEnd
  cases e <;> simp only [HdrEnd.instr, selects] <;> split_ifs <;> simp_all

/-! ### Packet classes (R102) -/

/-- A packet whose checksum does not verify. -/
theorem pktClass_unverified (h : Header) (r : ResetState) (q : SeqNum) :
    pktClass false h r q = .badsum := rfl

/-- A control packet is unfinished, or a RESET, or a RESET_ACK that is stray in mode NONE. -/
theorem pktClass_control {h : Header} (hc : h.isControl = true) (r : ResetState) (q : SeqNum) :
    pktClass true h r q =
      if h.unf then .ctrlUnfin
      else if h.attr = attrReset then .reset
      else if r = .resetting then .resetAck
      else .resetAckStray := by
  have hattr : h.attr = attrReset ∨ h.attr = attrResetAck := by simpa [Header.isControl] using hc
  simp [pktClass, hattr]

/-- A reserved `ATTR` value. -/
theorem pktClass_attrRsvd {h : Header} (ha : 3 ≤ h.attr.toNat) (r : ResetState) (q : SeqNum) :
    pktClass true h r q = .attrRsvd := by
  have hreset : h.attr ≠ attrReset := by intro e; simp [e, attrReset] at ha
  have hack : h.attr ≠ attrResetAck := by intro e; simp [e, attrResetAck] at ha
  simp [pktClass, hreset, hack, ha]

/-- `ATTR` NONE without a payload. -/
theorem pktClass_ack {h : Header} (ha : h.attr = attrNone) (hl : h.length = 0) (r : ResetState)
    (q : SeqNum) : pktClass true h r q = if h.unf then .ackUnfin else .ack := by
  simp [pktClass, ha, hl, attrNone, attrReset, attrResetAck]

/-- A data packet, by the mode, the sequence number and `UNF`. -/
theorem pktClass_data {h : Header} (hd : h.isData = true) (r : ResetState) (q : SeqNum) :
    pktClass true h r q =
      if r = .resetting then .dataResetting
      else if h.seq ≠ q then .dataOrder
      else if h.unf then .dataFrag
      else .dataFin := by
  obtain ⟨ha, hl⟩ : h.attr = attrNone ∧ h.length ≠ 0 := by simpa [Header.isData] using hd
  simp only [pktClass, ha, if_neg hl]
  simp [attrNone, attrReset, attrResetAck]

/-- `PKT.BADSUM` is the class of no packet that verifies. -/
theorem pktClass_verified_ne_badsum (h : Header) (r : ResetState) (q : SeqNum) :
    pktClass true h r q ≠ .badsum := by
  unfold pktClass
  split_ifs <;> simp_all

/-- A packet is a control packet, has a reserved `ATTR`, has no payload, or is a data packet. -/
theorem Header.kinds (h : Header) : h.isControl = true ∨ 3 ≤ h.attr.toNat ∨
    (h.attr = attrNone ∧ h.length = 0) ∨ h.isData = true := by
  obtain ha | ha | ha | ha := attr_cases h
  · by_cases hl : h.length = 0
    · exact .inr (.inr (.inl ⟨ha, hl⟩))
    · exact .inr (.inr (.inr (by simpa [isData, ha, attrNone] using hl)))
  · exact .inl (by simp [isControl, ha, attrReset])
  · exact .inl (by simp [isControl, ha, attrResetAck])
  · exact .inr (.inl ha)

/-- The mode is one bit (R30). -/
theorem ResetState.ne_resetting_iff {r : ResetState} : r ≠ .resetting ↔ r = .none := by
  cases r <;> simp

/-- The class chosen is a row that admits the header and is selected. -/
theorem selects_of_pktClass (c : Ctx) (h : Header) :
    ((pktClass c.verified h c.resetState c.expectedSeq).instr h).wf = true ∧
      selects c ((pktClass c.verified h c.resetState c.expectedSeq).instr h) = true := by
  cases hv : c.verified with
  | false => simp [pktClass_unverified, PktClass.instr, Instr.wf, selects, hv]
  | true =>
    obtain hk | hk | ⟨ha, hl⟩ | hk := h.kinds
    · have ha : h.attr = attrReset ∨ h.attr = attrResetAck := by simpa [Header.isControl] using hk
      rw [pktClass_control hk]
      split_ifs <;> simp_all [PktClass.instr, Instr.wf, selects, ResetState.ne_resetting_iff]
    · simp [pktClass_attrRsvd hk, PktClass.instr, Instr.wf, selects, hv, hk]
    · rw [pktClass_ack ha hl]
      split_ifs <;> simp_all [PktClass.instr, Instr.wf, selects]
    · rw [pktClass_data hk]
      split_ifs <;> simp_all [PktClass.instr, Instr.wf, selects, ResetState.ne_resetting_iff]

/-- A row of R102 that admits a header and is selected is the class chosen for it. -/
theorem pktClass_of_selects {c : Ctx} {h : Header} {k : PktClass} (hw : (k.instr h).wf = true)
    (hs : selects c (k.instr h) = true) :
    pktClass c.verified h c.resetState c.expectedSeq = k := by
  have hne : attrResetAck ≠ attrReset := by decide
  cases k with
  | badsum => simp_all [PktClass.instr, selects, pktClass_unverified]
  | reset | resetAck | resetAckStray | ctrlUnfin =>
    have hk : h.isControl = true := by simp_all [PktClass.instr, Instr.wf, Header.isControl]
    simp_all [PktClass.instr, Instr.wf, selects, pktClass_control hk]
  | attrRsvd =>
    have hk : 3 ≤ h.attr.toNat := by simpa [PktClass.instr, Instr.wf] using hw
    simp_all [PktClass.instr, selects, pktClass_attrRsvd hk]
  | ack | ackUnfin =>
    obtain ⟨ha, hl⟩ : h.attr = attrNone ∧ h.length = 0 := by simp_all [PktClass.instr, Instr.wf]
    simp_all [PktClass.instr, Instr.wf, selects, pktClass_ack ha hl]
  | dataResetting | dataOrder | dataFrag | dataFin =>
    have hk : h.isData = true := by simp_all [PktClass.instr, Instr.wf]
    simp_all [PktClass.instr, Instr.wf, selects, pktClass_data hk]

/-! ### Register writes (R105) -/

/-- The operation chosen for a register write is a row that admits it, is selected, and has it as its
code. -/
theorem selects_of_csrWriteInstr (c : Ctx) (n : Nat) (v : Word) :
    (csrWriteInstr n v).wf = true ∧ selects c (csrWriteInstr n v) = true ∧
      encode (csrWriteInstr n v) = .input (.csrWrite n v) := by
  unfold csrWriteInstr
  split_ifs with h0 hlink habort h1
  · subst h0; exact ⟨hlink, rfl, rfl⟩
  · subst h0; exact ⟨by simp only [Instr.wf, hlink, habort]; rfl, rfl, rfl⟩
  · subst h0; exact ⟨by simp only [Instr.wf, hlink, habort]; rfl, rfl, rfl⟩
  · subst h1; exact ⟨rfl, rfl, rfl⟩
  · exact ⟨decide_eq_true (by omega), rfl, rfl⟩

/-! ### Decoding by format -/

/-- A received byte decodes to the operation chosen for it. -/
theorem decode_rxByte {c : Ctx} {b : Byte} {op : ByteOp}
    (h : byteOp c.phase c.offs c.length b = some op) :
    decode c (.input (.rxByte b)) = .ok (op.instr b) := by
  simp [decode, h]

/-- A packet word decodes to the class chosen for its header. -/
theorem decode_packetWord (c : Ctx) (h : Header) :
    decode c (.packet (packetWord h)) =
      .ok ((pktClass c.verified h c.resetState c.expectedSeq).instr h) := by
  simp [decode]

/-- The code of every `PKT` row is its header's packet word (R106). -/
theorem encode_pktClass_instr (k : PktClass) (h : Header) :
    encode (k.instr h) = .packet (packetWord h) := by
  cases k <;> rfl

/-- A `BYTE` row is decoded from its code. -/
theorem decode_byte_row {c : Ctx} {b : Byte} (op : ByteOp) (hw : (op.instr b).wf = true)
    (hs : selects c (op.instr b) = true) (he : encode (op.instr b) = .input (.rxByte b)) :
    decode c (encode (op.instr b)) = .ok (op.instr b) := by
  rw [he, decode_rxByte (byteOp_of_selects hw hs he)]

/-- A `PKT` row is decoded from its code. -/
theorem decode_pkt_row {c : Ctx} {h : Header} (k : PktClass) (hw : (k.instr h).wf = true)
    (hs : selects c (k.instr h) = true) : decode c (encode (k.instr h)) = .ok (k.instr h) := by
  rw [encode_pktClass_instr, decode_packetWord, pktClass_of_selects hw hs]

/-- An `HDREND` row is decoded from its code. -/
theorem decode_hdrend_row {c : Ctx} (e : HdrEnd) (hs : selects c e.instr = true) :
    decode c .headerEnd = .ok e.instr := by
  rw [decode, hdrEnd_eq_iff.2 hs]

/-! ### Decode and encode are inverse -/

/-- Settles O2, row by row: each row is chosen by the part of the map that its format belongs to. -/
theorem decodeEncodeIsIdentity : Obligations.DecodeEncodeIsIdentity := by
  intro c i hw hs
  cases i with
  | pktBadsum h => exact decode_pkt_row .badsum hw hs
  | pktReset h => exact decode_pkt_row .reset hw hs
  | pktResetAck h => exact decode_pkt_row .resetAck hw hs
  | pktResetAckStray h => exact decode_pkt_row .resetAckStray hw hs
  | pktCtrlUnfin h => exact decode_pkt_row .ctrlUnfin hw hs
  | pktAttrRsvd h => exact decode_pkt_row .attrRsvd hw hs
  | pktAck h => exact decode_pkt_row .ack hw hs
  | pktAckUnfin h => exact decode_pkt_row .ackUnfin hw hs
  | pktDataResetting h => exact decode_pkt_row .dataResetting hw hs
  | pktDataOrder h => exact decode_pkt_row .dataOrder hw hs
  | pktDataFrag h => exact decode_pkt_row .dataFrag hw hs
  | pktDataFin h => exact decode_pkt_row .dataFin hw hs
  | rxPre0Hit => exact decode_byte_row .pre0Hit hw hs rfl
  | rxPre0Skip b => exact decode_byte_row .pre0Skip hw hs rfl
  | rxPre1Hit => exact decode_byte_row .pre1Hit hw hs rfl
  | rxPre1Retry => exact decode_byte_row .pre1Retry hw hs rfl
  | rxPre1Miss b => exact decode_byte_row .pre1Miss hw hs rfl
  | rxHdr b => exact decode_byte_row .hdr hw hs rfl
  | rxHdrLast b => exact decode_byte_row .hdrLast hw hs rfl
  | rxPay b => exact decode_byte_row .pay hw hs rfl
  | rxPayLast b => exact decode_byte_row .payLast hw hs rfl
  | rxFtr b => exact decode_byte_row .ftr hw hs rfl
  | rxFtrLast b => exact decode_byte_row .ftrLast hw hs rfl
  | hdrendErrHeader => exact decode_hdrend_row .errHeader hs
  | hdrendErrOom => exact decode_hdrend_row .errOom hs
  | hdrendToFooter => exact decode_hdrend_row .toFooter hs
  | hdrendToPayload => exact decode_hdrend_row .toPayload hs
  | hardReset | csrWriteRxCfg v | csrRead n | burst bytes => rfl
  | cmdLinkReset v | cmdRxAbort v | cmdNop v => simp_all [Instr.wf, encode, decode, csrWriteInstr]
  | csrWriteIgnored n v =>
    have h2 : 2 ≤ n := of_decide_eq_true hw
    simp [encode, decode, csrWriteInstr, show n ≠ 0 by omega, show n ≠ 1 by omega]

/-- Settles O3, by the format of the code: what each part of the map chooses is a row admitted and
selected, with the code decoded. -/
theorem encodeDecodeIsIdentity : Obligations.EncodeDecodeIsIdentity := by
  intro c code i h
  cases code with
  | input input =>
    cases input with
    | rxByte b =>
      cases hop : byteOp c.phase c.offs c.length b with
      | none => simp [decode, hop] at h
      | some op =>
        cases (decode_rxByte hop).symm.trans h
        exact selects_of_byteOp hop
    | hardReset | csrRead n => cases h; exact ⟨rfl, rfl, rfl⟩
    | csrWrite n v => cases h; exact selects_of_csrWriteInstr c n v
  | headerEnd =>
    cases h
    refine ⟨?_, hdrEnd_eq_iff.1 rfl, ?_⟩ <;> cases hdrEnd .. <;> rfl
  | packet bytes =>
    cases hh : headerOfPacket bytes with
    | error r => simp [decode, hh] at h
    | ok hdr =>
      rw [← packetWord_of_headerOfPacket hh] at h ⊢
      cases (decode_packetWord c hdr).symm.trans h
      obtain ⟨hw, hs⟩ := selects_of_pktClass c hdr
      exact ⟨hw, hs, encode_pktClass_instr _ hdr⟩
  | burst bytes => cases h; exact ⟨rfl, rfl, rfl⟩

/-- A code that decodes selects exactly one row: the one it decodes to. -/
theorem existsUnique_row {c : Ctx} {code : Code} {i : Instr} (h : decode c code = .ok i) :
    ∃! i : Instr, i.wf = true ∧ selects c i = true ∧ encode i = code := by
  refine ⟨i, encodeDecodeIsIdentity c code i h, ?_⟩
  rintro j ⟨hw, hs, rfl⟩
  cases (decodeEncodeIsIdentity c j hw hs).symm.trans h
  rfl

/-- Settles O4: at a position that R46 allows, every byte decodes. -/
theorem everyByteSelectsExactlyOne : Obligations.EveryByteSelectsExactlyOne := by
  intro s b v hp
  obtain ⟨op, hop⟩ := byteOp_of_posOk b hp
  exact existsUnique_row (decode_rxByte (c := s.ctx v) hop)

/-- Settles O5: every header decodes. -/
theorem everyHeaderSelectsExactlyOneClass : Obligations.EveryHeaderSelectsExactlyOneClass :=
  fun c h => existsUnique_row (decode_packetWord c h)

/-! ### Which row -/

/-- Settles O6: each of the twelve rows is admitted and selected under its own conditions, so it is
what the packet word decodes to. -/
theorem headerSelectsItsClass : Obligations.HeaderSelectsItsClass := by
  rintro c h attr unf (hattr : attr = h.attr) (hunf : unf = h.unf)
  subst attr unf
  have hdata (ha : h.attr = 0) (hl : h.length ≠ 0) : h.isData = true := by
    simpa [Header.isData, ha, attrNone] using hl
  refine ⟨fun hv => ?_, fun hv => ⟨?_, ?_, ?_, ?_, ?_, ?_, ?_, ?_, ?_, ?_, ?_⟩⟩
  · exact decodeEncodeIsIdentity c (.pktBadsum h) rfl (by simp [selects, hv])
  · intro ha hu
    exact decodeEncodeIsIdentity c (.pktReset h) (by simp [Instr.wf, ha, hu, attrReset]) hv
  · intro ha hu hr
    exact decodeEncodeIsIdentity c (.pktResetAck h) (by simp [Instr.wf, ha, hu, attrResetAck])
      (by simp [selects, hv, hr])
  · intro ha hu hr
    exact decodeEncodeIsIdentity c (.pktResetAckStray h) (by simp [Instr.wf, ha, hu, attrResetAck])
      (by simp [selects, hv, hr])
  · intro ha hu
    have hcontrol : h.isControl = true := by
      simpa [Header.isControl, attrReset, attrResetAck] using ha
    exact decodeEncodeIsIdentity c (.pktCtrlUnfin h) (by simp [Instr.wf, hcontrol, hu]) hv
  · intro ha
    exact decodeEncodeIsIdentity c (.pktAttrRsvd h) (decide_eq_true ha) hv
  · intro ha hl hu
    exact decodeEncodeIsIdentity c (.pktAck h) (by simp [Instr.wf, ha, hl, hu, attrNone]) hv
  · intro ha hl hu
    exact decodeEncodeIsIdentity c (.pktAckUnfin h) (by simp [Instr.wf, ha, hl, hu, attrNone]) hv
  · intro ha hl hr
    exact decodeEncodeIsIdentity c (.pktDataResetting h) (hdata ha hl) (by simp [selects, hv, hr])
  · intro ha hl hr hq
    exact decodeEncodeIsIdentity c (.pktDataOrder h) (hdata ha hl) (by simp [selects, hv, hr, hq])
  · intro ha hl hr hq hu
    exact decodeEncodeIsIdentity c (.pktDataFrag h) (by simp [Instr.wf, hdata ha hl, hu])
      (by simp [selects, hv, hr, hq])
  · intro ha hl hr hq hu
    exact decodeEncodeIsIdentity c (.pktDataFin h) (by simp [Instr.wf, hdata ha hl, hu])
      (by simp [selects, hv, hr, hq])

/-- Settles O7: each row is admitted under its own condition on the register number and the data, and
selected in every state. -/
theorem registerWriteSelects : Obligations.RegisterWriteSelects := by
  intro c n v
  refine ⟨?_, ?_, ?_, ?_, fun hn => ?_, rfl, rfl⟩
  · rintro rfl h0
    exact decodeEncodeIsIdentity c (.cmdLinkReset v) h0 rfl
  · rintro rfl h0 h1
    exact decodeEncodeIsIdentity c (.cmdRxAbort v) (by simp only [Instr.wf, h0, h1]; rfl) rfl
  · rintro rfl h0 h1
    exact decodeEncodeIsIdentity c (.cmdNop v) (by simp only [Instr.wf, h0, h1]; rfl) rfl
  · rintro rfl
    rfl
  · exact decodeEncodeIsIdentity c (.csrWriteIgnored n v) (decide_eq_true hn) rfl

/-- Settles O1: the decoder is run on each of the eight words. -/
theorem tableWordsDecode : Obligations.TableWordsDecode := by
  unfold Obligations.TableWordsDecode
  decide

end Sys2Proof
end

section
/-! PROOFS. The statement of 30_encoding about whole packets: encode, then receive (R110, R301(a)). -/

namespace Sys2Proof.Machine

/-- The state in which a packet with header `h` and payload `p`, received from the marker search in
`s`, is judged (R180). -/
def State.received (s : State) (h : Header) (p : List Byte) : State :=
  let c := checksum s.cfg.checksum (covered h.bytes p)
  { s with
    phase := .preamble, offs := 0, hdr := h.toHdr,
    ftr := #v[wordByte c 0, wordByte c 1, wordByte c 2, wordByte c 3],
    buf := Memory.writes s.buf s.loc.toNat p }

section Received

variable {s : State} {h : Header} {p : List Byte}

/-- The header held is the one received. -/
@[simp] theorem received_header : (s.received h p).header = h := headerOf_toHdr h

/-- Header and payload, from HEADER on, when both header checks pass: the payload is stored from `LOC`
on, and the footer is awaited. -/
theorem execBurst_header_payload (hp : s.phase = .header) (ho : s.offs = 0)
    (hlen : h.length.toNat = p.length) (hmax : p.length ≤ s.maxPayload.toNat)
    (hroom : s.loc.toNat + p.length ≤ s.cfg.dgramBufSize) :
    execBurst (h.bytes ++ p) s = .next
      { s with
        phase := .footer, offs := 0, hdr := h.toHdr,
        buf := Memory.writes s.buf s.loc.toNat p } := by
  set u : State := { s with hdr := h.toHdr, offs := 7 } with hu
  have hul : u.header.length.toNat = p.length := by
    rw [show u.header = h from headerOf_toHdr h, hlen]
  have hhdr := execBurst_header hp ho h
  obtain ⟨hlong, -⟩ | ⟨-, hfull, -⟩ | ⟨-, -, hempty, hend⟩ | ⟨-, -, hsome, hend⟩ :=
    headerComplete_cases u
  · exact absurd hmax (Nat.not_le.2 (hul ▸ hlong))
  · exact absurd hroom (Nat.not_le.2 (hul ▸ hfull))
  · obtain rfl : p = [] := List.eq_nil_of_length_eq_zero (hul ▸ hempty)
    exact execBurst_append (hhdr.trans hend) rfl
  · have hne : p ≠ [] := by rintro rfl; simp [hul] at hsome
    refine execBurst_append (hhdr.trans hend) ?_
    rw [execBurst_payload p rfl hne (by simp [hul]) (by simpa [hul] using hroom)]
    simp [hu, State.setPos]

/-- The payload reads back from where it was stored. -/
theorem memRead_received (hroom : s.loc.toNat + p.length ≤ s.cfg.dgramBufSize) :
    memRead (s.received h p) s.loc.toNat p.length = .ok p := by
  refine (memReadIsTheByteList ..).2 ⟨rfl, fun i hi => ⟨?_, ?_⟩⟩
  · exact Nat.lt_of_lt_of_le (Nat.add_lt_add_left hi _) hroom
  · simp [State.received, Memory.read_writes, hi]

/-- Its footer verifies (R133). -/
theorem verify_received (hlen : h.length.toNat = p.length)
    (hroom : s.loc.toNat + p.length ≤ s.cfg.dgramBufSize) :
    verify (s.received h p) = .ok true := by
  refine verify_ok.2 ⟨p, ?_, ?_⟩
  · rw [received_header, hlen]; exact memRead_received hroom
  · exact (beq_iff_eq.2 (rxsum_footerBytes _)).symm

/-- Every byte up to the end of the payload has been written (R74). -/
theorem written_received (hi : s.Inv) (hp : s.phase = .preamble) (a : Nat)
    (ha : a < s.loc.toNat + p.length) :
    (Memory.read (s.received h p).buf a).isSome = true := by
  have hfilled : s.filled = s.loc.toNat := by simp [State.filled, hp]
  have hread : Memory.read (s.received h p).buf a = _ := Memory.read_writes s.buf s.loc.toNat p a
  rw [hread]
  split_ifs with hnew
  · have hlt : a - s.loc.toNat < p.length := by omega
    simp [hlt]
  · exact hi.written a (by omega)

/-- The class rule of a packet received under the invariant completes: all its reads are of written
bytes. -/
theorem pktStep_received_completes (k : PktClass) (hi : s.Inv) (hp : s.phase = .preamble)
    (hlen : h.length.toNat = p.length) (hroom : s.loc.toNat + p.length ≤ s.cfg.dgramBufSize) :
    ∃ t, pktStep k h (s.received h p) = .next t := by
  refine pktStep_completes ⟨p, ?_⟩ (memRead_of_written fun i hlt => ?_)
  · rw [hlen]
    exact memRead_received hroom
  · rw [hlen] at hlt
    rw [Nat.zero_add]
    exact ⟨Nat.lt_of_lt_of_le hlt hroom, written_received hi hp i hlt⟩

/-- A packet of R109 received from the marker search, when both header checks pass, performs the rule
of its class, the checksum verified. -/
theorem execBurst_packet {t : State} (hi : s.posOk) (hp : s.phase = .preamble)
    (hlen : h.length.toNat = p.length) (hmax : p.length ≤ s.maxPayload.toNat)
    (hroom : s.loc.toNat + p.length ≤ s.cfg.dgramBufSize)
    (ht : pktStep (pktClass true h s.resetState s.expectedSeq) h (s.received h p) = .next t) :
    execBurst (packetWord h ++ p ++ footerBytes (checksum s.cfg.checksum (covered h.bytes p))) s =
      .next t := by
  have hj : judge (s.received h p) = .next t :=
    judge_next.2 ⟨true, verify_received hlen hroom, by rw [received_header]; exact ht⟩
  rw [packetWord, List.append_assoc preamble]
  exact execBurst_append
    (execBurst_append (execBurst_marker hi hp) (execBurst_header_payload rfl rfl hlen hmax hroom))
    (execBurst_footer rfl rfl _ _ _ _ hj)

end Received

/-- The `length` that the encoder writes is the payload's (R109). -/
theorem packetHeader_length (flags code ackSeq seq r0 r1 : Byte) {p : List Byte}
    (hp : p.length < 65536) :
    (packetHeader flags code ackSeq seq r0 r1 p).length.toNat = p.length :=
  (BitVec.toNat_ofNat ..).trans (Nat.mod_eq_of_lt hp)

/-- Settles O54: the packet reaches the rule of its class, whose one event carries the header it was
read from, and which is not `PKT.BADSUM` since the checksum verified. -/
theorem packetRoundTrip : Obligations.PacketRoundTrip := by
  intro s flags code ackSeq seq r0 r1 p hi hp hmax hroom
  set h := packetHeader flags code ackSeq seq r0 r1 p
  have hlen : h.length.toNat = p.length :=
    packetHeader_length _ _ _ _ _ _ (Nat.lt_of_le_of_lt hmax s.maxPayload.isLt)
  obtain ⟨t, ht⟩ := pktStep_received_completes (pktClass true h s.resetState s.expectedSeq)
    hi hp hlen hroom
  obtain ⟨d, data, hev, -, -, hhdr, hftr, -, -, -, -, hpos, -, -, -, hbad⟩ := pktStep_next ht
  obtain ⟨hphase, hoffs⟩ : t.phase = .preamble ∧ t.offs = 0 := hpos.elim id id
  refine ⟨t, eventOf d h data, execBurst_packet hi.pos hp hlen hmax hroom ht, hphase, hoffs, hev,
    rfl, rfl, rfl, rfl, hlen, hhdr, ?_, fun hd => ?_⟩
  · rw [hftr]
    rfl
  · exact pktClass_verified_ne_badsum _ _ _ (hbad.1 hd)

end Sys2Proof.Machine
end

section
/-! PROOFS. The statements of 40_checksum_codec: the byte order of R132, the verdict on a corrupted
packet (R133, R181), and the check values of the default `CHECKSUM` (R138). -/

namespace Sys2Proof.Machine

/-- Settles O9: `LENGTH` and the received checksum are `le16` and `le32` of the holding registers. -/
theorem multiByteFieldsAreLittleEndian : Obligations.MultiByteFieldsAreLittleEndian :=
  ⟨fun hdr => le16_toNat hdr[4] hdr[5], fun ftr => le32_toNat ftr[0] ftr[1] ftr[2] ftr[3]⟩

/-- `VERIFY` fails a readable packet whose received checksum differs from the computed one (R133). -/
theorem verify_eq_false {s : State} {payload : List Byte}
    (hread : memRead s s.loc.toNat s.header.length.toNat = .ok payload)
    (hsum : rxsum s.ftr ≠ checksum s.cfg.checksum (covered s.hdr.toList payload)) :
    verify s = .ok false :=
  verify_ok.2 ⟨payload, hread, (beq_false_of_ne hsum).symm⟩

/-- A packet that does not verify gets the rule of `PKT.BADSUM`, whatever its header says (R181). -/
theorem judge_of_unverified {s : State} (hv : verify s = .ok false) :
    judge s = .next (raiseErr .checksum s.header s) :=
  judge_next.2 ⟨false, hv, by rw [pktClass_unverified]; rfl⟩

/-- Settles O31: the packet is judged with the byte in `FTR[3]`, where it does not verify. -/
theorem corruptedPacketIsRejected : Obligations.CorruptedPacketIsRejected := by
  intro s b payload hread hsum
  set t : State := { s with ftr := s.ftr.setIfInBounds 3 b, phase := .preamble, offs := 0 }
  have hreadt : memRead t t.loc.toNat t.header.length.toNat = .ok payload :=
    (memRead_congr (s := t) (t := s) rfl fun _ _ => rfl).trans hread
  calc exec (.rxFtrLast b) s
    _ = judge t := execRxFtrLast_eq b s
    _ = .next (raiseErr .checksum t.header t) := judge_of_unverified (verify_eq_false hreadt hsum)

/-! ### Check values (R138) -/

/-- Settles O57: the CRC-32 loop is run on each of the four lists; the footer of `ACK 00` is the last
of the four values in wire order, since its coverage is the marker with a zero header. -/
theorem crcCheckValues : Obligations.CrcCheckValues := by
  have hcrc : checksum .crc32 [0x68, 0x43, 0, 0, 0, 0, 0, 0, 0, 0] = 0xC6A51330 := by
    decide +kernel
  refine ⟨by decide +kernel, by decide +kernel, by decide +kernel, hcrc, ?_⟩
  calc encodePacket .crc32 0 0 0 0 [] 0 0
    _ = [0x68, 0x43, 0, 0, 0, 0, 0, 0, 0, 0] ++
        footerBytes (checksum .crc32 [0x68, 0x43, 0, 0, 0, 0, 0, 0, 0, 0]) := rfl
    _ = [0x68, 0x43, 0, 0, 0, 0, 0, 0, 0, 0] ++ footerBytes 0xC6A51330 := by rw [hcrc]
    _ = [0x68, 0x43, 0, 0, 0, 0, 0, 0, 0, 0] ++ [0x30, 0x13, 0xA5, 0xC6] := rfl

end Sys2Proof.Machine
end

section
/-! PROOFS. The statements of 41_byte_ops: where each byte operation is selected and what it does. -/

namespace Sys2Proof.Machine

/-! ### The marker search (R151 to R155) -/

/-- Settles O14: the effects are the rules as written; the byte and the position admit and select one
row. -/
theorem markerSearchMovesOnlyThePosition : Obligations.MarkerSearchMovesOnlyThePosition := by
  refine fun s v b => ⟨rfl, rfl, rfl, rfl, rfl, fun hp ho => ?_, fun hp ho => ?_⟩
  · split_ifs with hb
    · subst hb
      exact decodeEncodeIsIdentity _ .rxPre0Hit rfl (by simp [selects, State.ctx, hp, ho])
    · exact decodeEncodeIsIdentity _ (.rxPre0Skip b) (by simpa [Instr.wf, preamble0] using hb)
        (by simp [selects, State.ctx, hp, ho])
  · split_ifs with hhit hretry
    · subst hhit
      exact decodeEncodeIsIdentity _ .rxPre1Hit rfl (by simp [selects, State.ctx, hp, ho])
    · subst hretry
      exact decodeEncodeIsIdentity _ .rxPre1Retry rfl (by simp [selects, State.ctx, hp, ho])
    · exact decodeEncodeIsIdentity _ (.rxPre1Miss b)
        (by simpa [Instr.wf, preamble0, preamble1] using And.intro hhit hretry)
        (by simp [selects, State.ctx, hp, ho])

/-! ### Captured bytes (R156, R164) -/

/-- Settles O15: the index is inside `HDR`, so the store into the holding register completes. -/
theorem headerByteIsCaptured : Obligations.HeaderByteIsCaptured := by
  intro s b v ho
  have hlt : s.offs.toNat + 1 < hdrLen := by simp only [hdrLen]; omega
  refine ⟨fun hp => decodeEncodeIsIdentity _ (.rxHdr b) rfl ?_, ?_⟩
  · simp [selects, State.ctx, hp, hlt]
  · simp only [exec, execRxHdr, setHdr_of_lt b (Nat.lt_of_succ_lt hlt), whenOk_ok]
    rfl

/-- Settles O20: the index is inside `FTR`, so the store into the holding register completes. -/
theorem footerByteIsCaptured : Obligations.FooterByteIsCaptured := by
  intro s b v ho
  have hlt : s.offs.toNat + 1 < ftrLen := by simp only [ftrLen]; omega
  refine ⟨fun hp => decodeEncodeIsIdentity _ (.rxFtr b) rfl ?_, ?_⟩
  · simp [selects, State.ctx, hp, hlt]
  · simp only [exec, execRxFtr, setFtr_of_lt b (Nat.lt_of_succ_lt hlt), whenOk_ok]
    rfl

/-! ### Payload bytes (R162, R163, R67) -/

/-- A store at an address of the buffer completes. -/
theorem memWrite_of_lt {s : State} {a : Nat} (b : Byte) (h : a < s.cfg.dgramBufSize) :
    memWrite s a b = .ok { s with buf := Memory.write s.buf a b } :=
  memWrite_ok.2 ⟨h, rfl⟩

/-- Settles O18: both operations make the one store at `LOC + OFFS`, which is in the buffer. -/
theorem payloadByteIsStored : Obligations.PayloadByteIsStored := by
  intro s b v hlt
  refine ⟨fun hp ho => decodeEncodeIsIdentity _ (.rxPay b) rfl ?_,
    fun hp ho => decodeEncodeIsIdentity _ (.rxPayLast b) rfl ?_,
    Memory.write s.buf (s.loc.toNat + s.offs.toNat) b, Memory.read_write_same _ _ _,
    fun a ha => Memory.read_write_other _ _ ha, ?_, ?_⟩
  · simp [selects, State.ctx, hp, ho]
  · simp [selects, State.ctx, hp, ho]
  · simp only [exec, execRxPay, memWrite_of_lt b hlt, whenOk_ok]
    rfl
  · simp only [exec, execRxPayLast, memWrite_of_lt b hlt, whenOk_ok]
    rfl

/-! ### Header completion (R157 to R161) -/

/-- Settles O17: the four rules as written, the error entry of R250 with its codes 4 and 2. -/
theorem headerEndOutcomes : Obligations.HeaderEndOutcomes :=
  fun _ => ⟨rfl, rfl, rfl, rfl⟩

/-- The row of a header-completion outcome performs that outcome. -/
theorem exec_hdrEnd_instr (e : HdrEnd) (s : State) : exec e.instr s = hdrEndStep e s := by
  cases e <;> rfl

/-- `RX.HDR.LAST` performs the row that R157 chooses with the byte in `HDR[7]`. -/
theorem exec_rxHdrLast {s t : State} {b : Byte}
    (ht : t = { s with hdr := s.hdr.setIfInBounds 7 b }) :
    exec (.rxHdrLast b) s =
      exec (hdrEnd t.header.length t.maxPayload t.loc t.cfg.dgramBufSize).instr t := by
  rw [exec_hdrEnd_instr, ht]
  exact execRxHdrLast_eq b s

/-- Settles O12: what a header completion decodes to is the row of the outcome that R157 chooses. -/
theorem headerLastPerformsItsOutcome : Obligations.HeaderLastPerformsItsOutcome :=
  fun _ _ _ => ⟨_, rfl, exec_rxHdrLast rfl⟩

/-- `RX.HDR.LAST` performs the outcome whose row is selected with the byte in `HDR[7]`. -/
theorem exec_rxHdrLast_of_selects {s t : State} {b : Byte} {e : HdrEnd}
    (ht : t = { s with hdr := s.hdr.setIfInBounds 7 b })
    (hs : selects (t.ctx false) e.instr = true) :
    exec (.rxHdrLast b) s = exec e.instr t := by
  rw [exec_rxHdrLast ht, ← hdrEnd_eq_iff.2 hs]
  rfl

/-- Settles O16: in each of the four cases the row of that end is selected, and its effect is the one
of `headerEndOutcomes`. -/
theorem headerLastHasFourEnds : Obligations.HeaderLastHasFourEnds := by
  intro s t b v ht
  obtain ⟨hheader, hoom, hfooter, hpayload⟩ := headerEndOutcomes t
  have hmax : t.maxPayload = s.maxPayload := by rw [ht]
  have hloc : t.loc = s.loc := by rw [ht]
  have hcfg : t.cfg = s.cfg := by rw [ht]
  have hev : t.events = s.events := by rw [ht]
  rw [← hmax, ← hloc, ← hcfg, ← hev]
  refine ⟨fun hp ho => ?_, fun hlong => ?_, fun hfit hfull => ?_, fun _ hroom hzero => ?_,
    fun hfit hroom hpos => ?_⟩
  · exact decodeEncodeIsIdentity _ (.rxHdrLast b) rfl (by simp [selects, State.ctx, hp, ho])
  · exact (exec_rxHdrLast_of_selects (e := .errHeader) ht (decide_eq_true hlong)).trans hheader
  · have hsel : selects (t.ctx false) .hdrendErrOom = true := by
      simp [selects, State.ctx, hfit, hfull]
    exact (exec_rxHdrLast_of_selects (e := .errOom) ht hsel).trans hoom
  · have hl : t.header.length = 0 := BitVec.eq_of_toNat_eq hzero
    have hsel : selects (t.ctx false) .hdrendToFooter = true := by
      simpa [selects, State.ctx, hl] using hroom
    exact (exec_rxHdrLast_of_selects (e := .toFooter) ht hsel).trans hfooter
  · have hl : t.header.length ≠ 0 := by intro h; simp [h] at hpos
    have hsel : selects (t.ctx false) .hdrendToPayload = true := by
      simpa [selects, State.ctx, hfit, hroom] using hl
    exact (exec_rxHdrLast_of_selects (e := .toPayload) ht hsel).trans hpayload

/-! ### Footer completion (R165, R180) -/

/-- The row of a packet class performs the rule of that class. -/
theorem exec_pktClass_instr (c : PktClass) (h : Header) (s : State) :
    exec (c.instr h) s = pktStep c h s := by
  cases c <;> rfl

/-- Where `VERIFY` answers, the verdict is the rule of the class chosen with its answer. -/
theorem judge_of_verify {s : State} {v : Bool} (hv : verify s = .ok v) :
    judge s = pktStep (pktClass v s.header s.resetState s.expectedSeq) s.header s := by
  rw [judge, hv, whenOk_ok]

/-- Settles O13: the marker and `HDR` are the packet word of the header held, which decodes to the row
of its class. -/
theorem footerLastPerformsItsClass : Obligations.FooterLastPerformsItsClass := by
  intro s t b v ht hv
  refine ⟨fun hp ho => ?_, (pktClass v t.header t.resetState t.expectedSeq).instr t.header, ?_, ?_⟩
  · exact decodeEncodeIsIdentity _ (.rxFtrLast b) rfl (by simp [selects, State.ctx, hp, ho])
  · have hword : [0x68, 0x43] ++ t.hdr.toList = packetWord t.header :=
      (packetWord_headerOf t.hdr).symm
    rw [hword]
    exact decode_packetWord (t.ctx v) t.header
  · calc exec (.rxFtrLast b) s
      _ = judge t := by rw [ht]; exact execRxFtrLast_eq b s
      _ = pktStep _ t.header t := judge_of_verify hv
      _ = exec _ t := (exec_pktClass_instr _ _ _).symm

/-- Settles O22: the readable bytes let it complete, and every class rule puts one event on the port
and keeps the parser, already in `(PREAMBLE, 0)`, there. -/
theorem footerLastAlwaysJudges : Obligations.FooterLastAlwaysJudges := by
  intro s b hread
  obtain ⟨t, ht⟩ := execRxFtrLast_completes s b hread
  obtain ⟨v, -, hstep⟩ := judge_next.1 ((execRxFtrLast_eq b s).symm.trans ht)
  obtain ⟨d, data, hev, herr, hcfg, hhdr, hftr, hmax, hbuf, hin, hrd, hpos, -⟩ :=
    pktStep_next hstep
  obtain ⟨hphase, hoffs⟩ : t.phase = .preamble ∧ t.offs = 0 := hpos.elim id id
  exact ⟨t, d, data, ht, hphase, hoffs, hftr, hev, herr, hhdr, hmax, hbuf, hcfg, hin, hrd⟩

end Sys2Proof.Machine
end

section
/-! PROOFS. The statements of 42_packet_disposition: what each packet class does, and what becomes of a
data packet received whole. -/

namespace Sys2Proof.Machine

/-! ### The rules of the classes (R181 to R193) -/

/-- Settles O23: the error entry of R250 with its codes 1 and 5. -/
theorem errorClassesTakeTheErrorEntry : Obligations.ErrorClassesTakeTheErrorEntry :=
  fun _ _ => ⟨rfl, rfl⟩

/-- Settles O24: the five rules as written, each the drop of R246 or R247. -/
theorem dropsChangeOnlyLocalErr : Obligations.DropsChangeOnlyLocalErr :=
  fun _ _ => ⟨rfl, rfl, rfl, rfl, rfl⟩

/-- Settles O25: the payload's bytes are read, so both rules go on to their register updates. -/
theorem controlPacketsResetTheLink : Obligations.ControlPacketsResetTheLink := by
  refine fun s h data hread => ⟨?_, ?_⟩
  · simp only [exec, execPktReset, hread, whenOk_ok]
    rfl
  · simp only [exec, execPktResetAck, hread, whenOk_ok]
    rfl

/-- Settles O26: the rule as written. -/
theorem ackOnlyTakesTheAcknowledgment : Obligations.AckOnlyTakesTheAcknowledgment :=
  fun _ _ => rfl

/-- Settles O27: `LOC` becomes the sum as the register holds it, which is the sum itself where it fits. -/
theorem fragmentIsAccepted : Obligations.FragmentIsAccepted :=
  fun s h => ⟨locPlus s h.length, rfl, locPlus_toNat, BitVec.toNat_add h.seq 1⟩

/-- Settles O28: the datagram's bytes are read before `LOC` is written. -/
theorem datagramIsDelivered : Obligations.DatagramIsDelivered := by
  intro s h data hread
  simp only [exec, execPktDataFin, hread, whenOk_ok]
  rfl

/-! ### Duplicates (R196) -/

/-- An accepted data packet, final or not, leaves the number after its own expected and the mode as it
was (R194). -/
theorem exec_acceptData_next {h : Header} {s t : State}
    (e : exec (.pktDataFin h) s = .next t ∨ exec (.pktDataFrag h) s = .next t) :
    t.expectedSeq = h.seq + 1 ∧ t.resetState = s.resetState := by
  obtain hfin | hfrag := e
  · obtain ⟨data, -, hnext⟩ := whenOk_next.1 hfin
    cases hnext
    exact ⟨rfl, rfl⟩
  · cases hfrag
    exact ⟨rfl, rfl⟩

/-- Settles O53: the packet's own number is not the one after it, which is now expected. -/
theorem duplicateIsOutOfOrder : Obligations.DuplicateIsOutOfOrder := by
  intro s t h hdata hmode haccepted
  obtain ⟨hseq, hmode'⟩ := exec_acceptData_next haccepted
  have hne : h.seq ≠ t.expectedSeq := by
    rw [hseq, Ne, BitVec.self_eq_add_right]
    decide
  exact decodeEncodeIsIdentity _ (.pktDataOrder h) hdata
    (by simp [selects, State.ctx, hmode', hmode, hne])

/-! ### Data packets received whole (R192, R193, R195) -/

section DataPacket

variable {s : State} {h : Header} {p : List Byte}

/-- What is read up to the end of a payload received: the accepted bytes, then the payload. -/
theorem memRead_received_append {acc : List Byte} (hacc : memRead s 0 s.loc.toNat = .ok acc)
    (hroom : s.loc.toNat + p.length ≤ s.cfg.dgramBufSize) :
    memRead (s.received h p) 0 (s.loc.toNat + p.length) = .ok (acc ++ p) := by
  have hkept : memRead (s.received h p) 0 s.loc.toNat = memRead s 0 s.loc.toNat := by
    refine memRead_congr (s := s.received h p) (t := s) rfl fun i hi => ?_
    have hbelow : ¬ s.loc.toNat ≤ i := Nat.not_le.2 hi
    simp [State.received, Memory.read_writes, hbelow]
  refine memRead_add (hkept.trans hacc) ?_
  rw [Nat.zero_add]
  exact memRead_received hroom

/-- A data packet with the expected number, received from the marker search in mode NONE, is accepted:
it performs the rule of the class that `UNF` selects. -/
theorem execBurst_dataPacket {t : State} {k : PktClass} (hi : s.posOk) (hp : s.phase = .preamble)
    (hmode : s.resetState = .none) (hdata : h.isData = true) (hseq : h.seq = s.expectedSeq)
    (hlen : h.length.toNat = p.length) (hmax : p.length ≤ s.maxPayload.toNat)
    (hroom : s.loc.toNat + p.length ≤ s.cfg.dgramBufSize)
    (hk : (if h.unf then .dataFrag else .dataFin) = k)
    (ht : exec (k.instr h) (s.received h p) = .next t) :
    execBurst (packetWord h ++ p ++ footerBytes (checksum s.cfg.checksum (covered h.bytes p))) s =
      .next t := by
  refine execBurst_packet hi hp hlen hmax hroom ?_
  have hclass : pktClass true h s.resetState s.expectedSeq = k := by
    simp [pktClass_data hdata, hmode, hseq, hk]
  rw [hclass, ← exec_pktClass_instr]
  exact ht

end DataPacket

/-- `ATTR` NONE and a payload make a data packet. -/
theorem packetHeader_isData {flags code ackSeq seq r0 r1 : Byte} {p : List Byte}
    (hattr : code.extractLsb' 4 4 = (0 : Nibble)) (hne : 1 ≤ p.length) (hlt : p.length < 65536) :
    (packetHeader flags code ackSeq seq r0 r1 p).isData = true := by
  have hlen := packetHeader_length flags code ackSeq seq r0 r1 hlt
  have hl : (packetHeader flags code ackSeq seq r0 r1 p).length ≠ 0 := by
    intro hzero
    rw [hzero] at hlen
    exact absurd hlen.symm (Nat.ne_of_gt hne)
  have ha : (packetHeader flags code ackSeq seq r0 r1 p).attr = attrNone := hattr
  simpa [Header.isData, ha] using hl

/-- Settles O55: the packet reaches the rule of R192, which moves `LOC` past the payload stored behind
the bytes accepted before. -/
theorem fragmentIsAppended : Obligations.FragmentIsAppended := by
  intro s flags code ackSeq r0 r1 p acc hi hp hmode hacc hne hmax hroom hattr hunf
  set h := packetHeader flags code ackSeq s.expectedSeq r0 r1 p
  have hlt : p.length < 65536 := Nat.lt_of_le_of_lt hmax s.maxPayload.isLt
  have hlen : h.length.toNat = p.length := packetHeader_length _ _ _ _ _ _ hlt
  obtain ⟨l, hexec, hl, -⟩ := fragmentIsAccepted (s.received h p) h
  have hloc : l.toNat = s.loc.toNat + p.length := by
    rw [← hlen]
    exact hl (by rw [hlen]; exact Nat.lt_of_le_of_lt hroom (dgramBufSize_lt hi))
  have hread := memRead_received_append (h := h) hacc hroom
  have hnext := execBurst_dataPacket (k := .dataFrag) hi.pos hp hmode
    (packetHeader_isData hattr hne hlt) rfl hlen hmax hroom (if_pos hunf) hexec
  refine ⟨_, _, hnext, rfl, rfl, rfl, hloc, ?_, rfl, rfl⟩
  rw [hloc, ← hread]
  exact memRead_congr (by rfl) fun _ _ => rfl

/-- Settles O56: the packet reaches the rule of R193, which reads the bytes accepted before and the
payload stored behind them. -/
theorem datagramIsReassembled : Obligations.DatagramIsReassembled := by
  intro s flags code ackSeq r0 r1 p acc hi hp hmode hacc hne hmax hroom hattr hunf
  set h := packetHeader flags code ackSeq s.expectedSeq r0 r1 p
  have hlt : p.length < 65536 := Nat.lt_of_le_of_lt hmax s.maxPayload.isLt
  have hlen : h.length.toNat = p.length := packetHeader_length _ _ _ _ _ _ hlt
  have hread : memRead (s.received h p) 0 (s.loc.toNat + h.length.toNat) = .ok (acc ++ p) := by
    rw [hlen]
    exact memRead_received_append hacc hroom
  have hexec := datagramIsDelivered (s.received h p) h _ hread
  have hnext := execBurst_dataPacket (k := .dataFin) hi.pos hp hmode
    (packetHeader_isData hattr hne hlt) rfl hlen hmax hroom (if_neg (Bool.eq_false_iff.1 hunf)) hexec
  exact ⟨_, _, hnext, rfl, rfl, rfl, rfl, rfl, rfl⟩

end Sys2Proof.Machine
end

section
/-! PROOFS. The statements of 43_host_ops: what the host operations do, what a register read returns,
and what a burst is. -/

namespace Sys2Proof.Machine

/-! ### Reset and register writes (R220 to R226) -/

/-- Settles O32: the rule as written, the reset values those of `State.resetWith`. -/
theorem hardResetValues : Obligations.HardResetValues :=
  fun s => ⟨_, rfl, rfl, rfl, resetWith_hdr s.cfg, resetWith_ftr s.cfg, rfl, rfl, rfl, rfl, rfl, rfl,
    rfl, rfl, rfl, rfl, rfl⟩

/-- Settles O33: the five rules as written. -/
theorem registerWritesDo : Obligations.RegisterWritesDo :=
  fun _ _ _ => ⟨rfl, rfl, rfl, rfl, rfl⟩

/-! ### Register reads (R224) -/

/-- Register 0 and the numbers that R34 leaves unassigned read 0. -/
theorem readReg_unassigned (s : State) {n : Nat} (hn : n = 0 ∨ 8 ≤ n) : readReg s n = 0 := by
  obtain rfl | hn := hn
  · rfl
  · obtain ⟨m, rfl⟩ := Nat.exists_eq_add_of_le' hn
    rfl

/-- Register 1 holds `MAX_PAYLOAD` in its lower half. -/
theorem readReg_one_toNat (s : State) : (readReg s 1).toNat = s.maxPayload.toNat :=
  BitVec.toNat_setWidth_of_le (by decide)

/-- The three fields of register 2 do not overlap and fit the word. -/
theorem readReg_two_toNat (s : State) :
    (readReg s 2).toNat =
      s.phase.code.toNat + 4 * s.resetState.bit.toNat + 65536 * s.offs.toNat := by
  have hphase := s.phase.code.isLt
  have hmode := s.resetState.bit.isLt
  have hoffs := s.offs.isLt
  simp only [readReg, BitVec.toNat_add, BitVec.toNat_mul, BitVec.toNat_setWidth, BitVec.reduceToNat]
  omega

/-- The four fields of register 3 do not overlap and fit the word. -/
theorem readReg_three_toNat (s : State) :
    (readReg s 3).toNat = s.expectedSeq.toNat + 2 ^ 8 * s.rxAckSeq.toNat
      + 2 ^ 16 * s.peerErr.toNat + 2 ^ 20 * s.localErr.toNat := by
  have hexpected := seqNum_lt s.expectedSeq
  have hack := seqNum_lt s.rxAckSeq
  have hpeer := s.peerErr.isLt
  have hlocal := s.localErr.isLt
  simp only [readReg, BitVec.toNat_add, BitVec.toNat_mul, BitVec.toNat_setWidth, BitVec.toNat_pow,
    BitVec.reduceToNat]
  omega

/-- Settles O34: registers 1 to 3 are their fields side by side, 4 is `LOC`, 5 to 7 are `le32` of the
holding registers. -/
theorem registerReadValues : Obligations.RegisterReadValues := by
  intro s n
  refine ⟨readReg s n, rfl, fun hn => ?_, ?_, ?_, ?_, ?_, ?_, ?_, ?_⟩
  · rw [readReg_unassigned s hn]
    rfl
  · rintro rfl
    exact readReg_one_toNat s
  · rintro rfl
    exact readReg_two_toNat s
  · rintro rfl
    exact readReg_three_toNat s
  · rintro rfl
    rfl
  all_goals
    rintro rfl
    exact le32_toNat ..

/-! ### Bursts in parts (R227) -/

/-- Continue with the next state, or stop the same way. -/
def andThen (r : Result) (k : State → Result) : Result :=
  match r with
  | .next t => k t
  | .fault f => .fault f
  | .refused q => .refused q

/-- A burst takes its first byte and goes on with the others. -/
theorem execBurst_cons (b : Byte) (bs : List Byte) (s : State) :
    execBurst (b :: bs) s = andThen (rxByte b s) (execBurst bs) := by
  cases h : rxByte b s <;> simp [execBurst, andThen, h]

/-- A burst in two parts, whatever the outcome of the first. -/
theorem execBurst_append_eq (xs ys : List Byte) (s : State) :
    execBurst (xs ++ ys) s = andThen (execBurst xs s) (execBurst ys) := by
  induction xs generalizing s with
  | nil => rfl
  | cons b xs ih =>
    rw [List.cons_append, execBurst_cons, execBurst_cons]
    cases rxByte b s with
    | next t => exact ih t
    | fault f => rfl
    | refused q => rfl

/-- Settles O36: the three outcomes of `execBurst_append_eq`. -/
theorem burstDependsOnConcatenation : Obligations.BurstDependsOnConcatenation := by
  refine fun s => ⟨rfl, fun xs ys => ?_⟩
  have happend : exec (.burst (xs ++ ys)) s = andThen (exec (.burst xs) s) (execBurst ys) :=
    execBurst_append_eq xs ys s
  rw [happend]
  exact ⟨fun _ h => congrArg (andThen · _) h, fun _ h => congrArg (andThen · _) h,
    fun _ h => congrArg (andThen · _) h⟩

/-! ### The meaning of a byte does not read the ports

The pending inputs and the pulses are the model's own fields: a byte has the same effect on the
registers of the block whatever they hold. Each lemma says so of one operation, by performing it with
the ports emptied. -/

/-- The state with the model's own port fields emptied: the registers of the block (R20). -/
def State.clearPorts (s : State) : State := { s with inputs := [], events := [], readData := none }

/-- An outcome up to the ports of the state it leaves. -/
def Result.clearPorts (r : Result) : Result := andThen r fun t => .next t.clearPorts

/-- An outcome that agrees with a completion up to the ports is a completion. -/
theorem next_of_clearPorts_eq {r : Result} {t : State}
    (h : Result.clearPorts r = Result.clearPorts (.next t)) :
    ∃ u, r = .next u ∧ u.clearPorts = t.clearPorts := by
  cases r with
  | next u => exact ⟨u, rfl, by simpa [Result.clearPorts, andThen] using h⟩
  | fault f => simp [Result.clearPorts, andThen] at h
  | refused q => simp [Result.clearPorts, andThen] at h

/-- Reads of `BUF`. -/
@[simp] theorem memRead_clearPorts (s : State) (a n : Nat) :
    memRead s.clearPorts a n = memRead s a n :=
  memRead_congr (s := s.clearPorts) (t := s) rfl fun _ _ => rfl

/-- `VERIFY`. -/
@[simp] theorem verify_clearPorts (s : State) : verify s.clearPorts = verify s := by
  unfold verify
  rw [memRead_clearPorts]
  rfl

/-- Two continuations that agree up to the ports agree after the same value. -/
theorem clearPorts_whenOk {α : Type} {r : Except Fault α} {k k' : α → Result}
    (h : ∀ a, Result.clearPorts (k a) = Result.clearPorts (k' a)) :
    Result.clearPorts (whenOk r k) = Result.clearPorts (whenOk r k') := by
  cases r with
  | ok a => exact h a
  | error f => rfl

/-- A store that does not read the ports, followed by an operation that does not read them. -/
theorem clearPorts_whenOk_store {r r' : Except Fault State} {k k' : State → Result}
    (hr : r' = r.map State.clearPorts)
    (h : ∀ t, Result.clearPorts (k' t.clearPorts) = Result.clearPorts (k t)) :
    Result.clearPorts (whenOk r' k') = Result.clearPorts (whenOk r k) := by
  subst hr
  cases r with
  | ok t => exact h t
  | error f => rfl

/-- The store of a header byte. -/
theorem setHdr_clearPorts (s : State) (i : Nat) (b : Byte) :
    s.clearPorts.setHdr i b = (s.setHdr i b).map State.clearPorts := by
  unfold State.setHdr
  split_ifs <;> rfl

/-- The store of a footer byte. -/
theorem setFtr_clearPorts (s : State) (i : Nat) (b : Byte) :
    s.clearPorts.setFtr i b = (s.setFtr i b).map State.clearPorts := by
  unfold State.setFtr
  split_ifs <;> rfl

/-- The store of a payload byte. -/
theorem memWrite_clearPorts (s : State) (a : Nat) (b : Byte) :
    memWrite s.clearPorts a b = (memWrite s a b).map State.clearPorts := by
  have hcfg : s.clearPorts.cfg = s.cfg := rfl
  unfold memWrite
  rw [hcfg]
  split_ifs <;> rfl

/-- The rules of the packet classes. -/
theorem pktStep_clearPorts (c : PktClass) (h : Header) (s : State) :
    Result.clearPorts (pktStep c h s.clearPorts) = Result.clearPorts (pktStep c h s) := by
  cases c
  case reset | resetAck | dataFin =>
    simp only [pktStep, execPktReset, execPktResetAck, execPktDataFin, memRead_clearPorts]
    exact clearPorts_whenOk fun _ => rfl
  all_goals rfl

/-- The verdict. -/
theorem judge_clearPorts (s : State) :
    Result.clearPorts (judge s.clearPorts) = Result.clearPorts (judge s) := by
  unfold judge
  rw [verify_clearPorts]
  exact clearPorts_whenOk fun _ => pktStep_clearPorts _ _ s

/-- Footer completion. -/
theorem footerComplete_clearPorts (s : State) :
    Result.clearPorts (footerComplete s.clearPorts) = Result.clearPorts (footerComplete s) :=
  judge_clearPorts (s.setPos .preamble 0)

/-- Header completion. -/
theorem headerComplete_clearPorts (s : State) :
    Result.clearPorts (headerComplete s.clearPorts) = Result.clearPorts (headerComplete s) := by
  have hend (e : HdrEnd) :
      Result.clearPorts (hdrEndStep e s.clearPorts) = Result.clearPorts (hdrEndStep e s) := by
    cases e <;> rfl
  exact hend _

/-- The byte operations: those that store a byte go on from the state with it. -/
theorem byteStep_clearPorts (op : ByteOp) (b : Byte) (s : State) :
    Result.clearPorts (byteStep op b s.clearPorts) = Result.clearPorts (byteStep op b s) := by
  cases op
  case hdr => exact clearPorts_whenOk_store (setHdr_clearPorts s _ b) fun _ => rfl
  case hdrLast =>
    exact clearPorts_whenOk_store (setHdr_clearPorts s (hdrLen - 1) b) headerComplete_clearPorts
  case pay | payLast => exact clearPorts_whenOk_store (memWrite_clearPorts s _ b) fun _ => rfl
  case ftr => exact clearPorts_whenOk_store (setFtr_clearPorts s _ b) fun _ => rfl
  case ftrLast =>
    exact clearPorts_whenOk_store (setFtr_clearPorts s (ftrLen - 1) b) footerComplete_clearPorts
  all_goals rfl

/-- `RXBYTE(b)`. -/
theorem rxByte_clearPorts (b : Byte) (s : State) :
    Result.clearPorts (rxByte b s.clearPorts) = Result.clearPorts (rxByte b s) := by
  unfold rxByte
  have hop : byteOp s.clearPorts.phase s.clearPorts.offs s.clearPorts.header.length b =
    byteOp s.phase s.offs s.header.length b := rfl
  rw [hop]
  cases byteOp s.phase s.offs s.header.length b with
  | some op => exact byteStep_clearPorts op b s
  | none => rfl

/-- A byte that completes in one state completes in every state with the same registers, and leaves
the same registers. -/
theorem rxByte_next_congr {b : Byte} {s s' t : State} (hs : s'.clearPorts = s.clearPorts)
    (h : rxByte b s = .next t) : ∃ u, rxByte b s' = .next u ∧ u.clearPorts = t.clearPorts := by
  refine next_of_clearPorts_eq ?_
  rw [← rxByte_clearPorts, hs, rxByte_clearPorts, h]

/-! ### A burst as steps (R227) -/

/-- A run goes on from where its first step leads. -/
theorem run_succ_of_step {s t : State} (h : step s = .next t) (k : Nat) :
    Sys2Proof.core.run (k + 1) s = Sys2Proof.core.run k t := by
  have hstep : Sys2Proof.core.step s = .next t := h
  simp only [Host.Core.run, hstep]

/-- The steps that take the bytes of a burst pending one by one leave the registers that the burst
leaves, and the inputs behind the bytes. -/
theorem run_of_execBurst {bs : List Byte} {rest : List Input} {s s' t : State}
    (hin : s.inputs = bs.map .rxByte ++ rest) (hs : s.clearPorts = s'.clearPorts)
    (h : execBurst bs s' = .next t) :
    ∃ u, Sys2Proof.core.run bs.length s = .next u ∧ u.inputs = rest ∧
      u.clearPorts = t.clearPorts := by
  induction bs generalizing s s' with
  | nil =>
    cases h
    exact ⟨s, rfl, hin, hs⟩
  | cons b bs ih =>
    obtain ⟨t₁, hbyte, hburst⟩ := execBurst_cons_next.1 h
    obtain ⟨u₁, hbyte', hregs⟩ := rxByte_next_congr (b := b)
      (s' := { s with inputs := bs.map .rxByte ++ rest, events := [], readData := none }) hs hbyte
    have hstep : step s = .next u₁ := (step_of_input hin).trans hbyte'
    obtain ⟨-, -, hinputs, -⟩ := rxByte_frame hbyte'
    rw [List.length_cons, run_succ_of_step hstep]
    exact ih hinputs hregs hburst

/-- Settles O37: the burst and the steps leave the same registers, and neither takes an input behind
the bytes. -/
theorem burstIsItsByteSteps : Obligations.BurstIsItsByteSteps := by
  intro s t bs rest h
  obtain ⟨u, hrun, hinputs, hregs⟩ :=
    run_of_execBurst (s := { s with inputs := bs.map .rxByte ++ rest })
      (s' := { s with inputs := rest, events := [], readData := none }) rfl rfl h
  obtain ⟨-, -, hinputs', -⟩ := execBurst_frame h
  refine ⟨u, hrun, ?_⟩
  calc { u with events := [], readData := none }
    _ = { u.clearPorts with inputs := rest } := by rw [← hinputs]; rfl
    _ = { t.clearPorts with inputs := t.inputs } := by rw [hregs, hinputs']
    _ = { t with events := [], readData := none } := rfl

end Sys2Proof.Machine
end

section
/-! PROOFS. The statements of 60_exceptions: no step stops under the invariant, a rejection advances
nothing, and a step without an input changes nothing. -/

namespace Sys2Proof.Machine

/-! ### Progress (R249) -/

/-- With no input pending a step is idle. -/
theorem step_of_no_input {s : State} (hi : s.inputs = []) : step s = .next (idle s) := by
  simp only [step, fetch, hi]

/-- Settles O11: the idle step clears the two pulses and nothing else. -/
theorem noInputChangesNothing : Obligations.NoInputChangesNothing :=
  fun _ => step_of_no_input

/-- Settles O43, by the input that the step takes: a byte is where the invariant is needed, for its
position and for the memory it reaches; the other inputs complete in every state. -/
theorem noStepStops : Obligations.NoStepStops := by
  intro s hs
  cases hi : s.inputs with
  | nil => exact ⟨idle s, step_of_no_input hi⟩
  | cons i rest =>
    rw [step_of_input hi]
    cases i with
    | rxByte b => exact rxByte_completes b (inv_ports hs rest [] none)
    | hardReset => exact ⟨_, rfl⟩
    | csrWrite n v =>
      obtain ⟨t, ht, -⟩ := exec_csrWriteInstr (n := n) (v := v)
        (s := { s with inputs := rest, events := [], readData := none })
      exact ⟨t, ht⟩
    | csrRead n => exact ⟨_, rfl⟩

/-! ### Rejections (R29, R249) -/

/-- Settles O51: the event is the one that the byte emitted, the pulses of the step before being gone,
and the frame of a byte says what a disposition that is no accept leaves as it was. -/
theorem rejectionAdvancesNothing : Obligations.RejectionAdvancesNothing := by
  intro s t b rest e hi h he hrejected
  rw [step_of_input hi] at h
  obtain ⟨-, -, -, -, -, -, -, ⟨hev, -⟩ | ⟨e', hev, -, -, hframe⟩⟩ := rxByte_frame h
  · simp [hev] at he
  · obtain rfl : e = e' := by simpa [hev] using he
    exact hframe hrejected

end Sys2Proof.Machine
end

section
/-! PROOFS. The statements of 70_reset_and_hazards: what the host reads after reset, and which bytes the
parser looks at while it searches the marker and while it counts a packet attempt. -/

namespace Sys2Proof.Machine

/-! ### After reset (R280) -/

/-- Registers 3 to 7 read 0 after reset: every field and every byte they are made of is 0. -/
theorem readReg_resetWith_of_three_le (cfg : Config) {n : Nat} (h3 : 3 ≤ n) (h7 : n ≤ 7) :
    readReg (State.resetWith cfg) n = 0 := by
  interval_cases n <;> rfl

/-- Settles O35: registers 0 to 2 as `readReg` gives them, from 3 on by whether R34 assigns the number. -/
theorem registersAfterReset : Obligations.RegistersAfterReset := by
  intro cfg
  refine ⟨rfl, readReg_one_toNat _, rfl, fun n h3 => ?_, rfl⟩
  obtain h8 | h7 := Nat.lt_or_ge 7 n
  · exact readReg_unassigned _ (.inr h8)
  · exact readReg_resetWith_of_three_le cfg h3 h7

/-! ### The marker search skips (R152, R301(b)) -/

/-- At `(PREAMBLE, 0)` a byte other than the first marker byte changes nothing. -/
theorem rxByte_skip {s : State} {b : Byte} (hp : s.phase = .preamble) (ho : s.offs = 0)
    (hb : b ≠ preamble0) : rxByte b s = .next s :=
  rxByte_next.2 ⟨.pre0Skip, by simp [byteOp, hp, ho, hb], rfl⟩

/-- Settles O39, by induction on the bytes: each is skipped, so the next one finds the same state. -/
theorem idleBytesChangeNothing : Obligations.IdleBytesChangeNothing := by
  intro s bs hp ho hbs
  change execBurst bs s = .next s
  induction bs with
  | nil => rfl
  | cons b bs ih =>
    have hb : b ≠ preamble0 := (List.ne_of_not_mem_cons hbs).symm
    exact execBurst_cons_next.2 ⟨s, rxByte_skip hp ho hb, ih (List.not_mem_of_not_mem_cons hbs)⟩

/-! ### The parser counts bytes (R287, R295, R301(c)) -/

/-- Settles O8, by the phase: only the rows of PREAMBLE compare the byte. -/
theorem byteValueMattersOnlyInPreamble : Obligations.ByteValueMattersOnlyInPreamble := by
  intro p o l b b' hp
  cases p with
  | preamble => exact absurd rfl hp
  | header => rfl
  | payload => rfl
  | footer => rfl

/-- The packet attempt whose payload or footer is being received ends after `n` further bytes, by what
its header declares (R101); at `(PREAMBLE, 0)` it has ended. -/
def State.EndsAfter (s : State) (n : Nat) : Prop :=
  match s.phase with
  | .preamble => s.offs = 0 ∧ n = 0
  | .header => False
  | .payload => s.offs.toNat + n = s.header.length.toNat + ftrLen
  | .footer => s.offs.toNat + n = ftrLen

section EndsAfter

variable {s : State} {n : Nat}

theorem endsAfter_preamble (hp : s.phase = .preamble) : s.EndsAfter n ↔ s.offs = 0 ∧ n = 0 := by
  simp only [State.EndsAfter, hp]

theorem not_endsAfter_header (hp : s.phase = .header) : ¬ s.EndsAfter n := by
  simp only [State.EndsAfter, hp, not_false_eq_true]

theorem endsAfter_payload (hp : s.phase = .payload) :
    s.EndsAfter n ↔ s.offs.toNat + n = s.header.length.toNat + 4 := by
  simp only [State.EndsAfter, hp, ftrLen]

theorem endsAfter_footer (hp : s.phase = .footer) : s.EndsAfter n ↔ s.offs.toNat + n = 4 := by
  simp only [State.EndsAfter, hp, ftrLen]

/-- In PAYLOAD the position is inside the payload (R46). -/
theorem offs_lt_of_payload (hi : s.Inv) (hp : s.phase = .payload) :
    s.offs.toNat < s.header.length.toNat := by
  have hpos := hi.pos
  simp only [State.posOk, hp] at hpos
  exact hpos.2.1

/-- In FOOTER the position is inside the footer (R46). -/
theorem offs_lt_of_footer (hi : s.Inv) (hp : s.phase = .footer) : s.offs.toNat < 4 := by
  have hpos := hi.pos
  simp only [State.posOk, hp] at hpos
  exact hpos.1

/-- Under the invariant the only attempt with no byte to come is the one that has ended: in PAYLOAD and
FOOTER `OFFS` stays below its bound (R46). -/
theorem ended_of_endsAfter_zero (hi : s.Inv) (h : s.EndsAfter 0) :
    s.phase = .preamble ∧ s.offs = 0 := by
  cases hp : s.phase with
  | preamble => exact ⟨rfl, ((endsAfter_preamble hp).1 h).1⟩
  | header => exact absurd h (not_endsAfter_header hp)
  | payload =>
    have hlt := offs_lt_of_payload hi hp
    rw [endsAfter_payload hp] at h
    omega
  | footer =>
    have hlt := offs_lt_of_footer hi hp
    rw [endsAfter_footer hp] at h
    omega

/-- The verdict leaves the parser where footer completion put it, at `(PREAMBLE, 0)` (R180). -/
theorem judge_position {t : State} (hp : s.phase = .preamble) (ho : s.offs = 0)
    (h : judge s = .next t) : t.phase = .preamble ∧ t.offs = 0 := by
  obtain ⟨v, -, hstep⟩ := judge_next.1 h
  obtain ⟨-, -, -, -, -, -, -, -, -, -, -, ⟨hphase, hoffs⟩ | hstart, -⟩ := pktStep_next hstep
  · exact ⟨hphase.trans hp, hoffs.trans ho⟩
  · exact hstart

/-- Each byte received, whatever its value, is one byte fewer to come. -/
theorem endsAfter_rxByte {b : Byte} {t : State} (hs : s.EndsAfter (n + 1))
    (h : rxByte b s = .next t) : t.EndsAfter n := by
  obtain ⟨hp, -⟩ | ⟨hp, -⟩ | ⟨hp, -⟩ | ⟨hp, ho, -, rfl⟩ | ⟨hp, ho, -, rfl⟩ | ⟨hp, ho, rfl⟩ |
    ⟨hp, ho, hj⟩ := rxByte_cases h
  · exact absurd ((endsAfter_preamble hp).1 hs).2 n.succ_ne_zero
  · exact absurd hs (not_endsAfter_header hp)
  · exact absurd hs (not_endsAfter_header hp)
  · rw [endsAfter_payload hp] at hs
    refine (endsAfter_payload (by exact hp)).2 ?_
    have hnext := offs_succ ho (length_lt _).le
    change (s.offs + 1).toNat + n = s.header.length.toNat + 4
    omega
  · rw [endsAfter_payload hp] at hs
    refine (endsAfter_footer rfl).2 ?_
    change 0 + n = 4
    omega
  · rw [endsAfter_footer hp] at hs
    refine (endsAfter_footer (by exact hp)).2 ?_
    have hnext := offs_succ (n := 4) (o := s.offs) (by omega) (by decide)
    change (s.offs + 1).toNat + n = 4
    omega
  · rw [endsAfter_footer hp] at hs
    obtain ⟨hphase, hoffs⟩ := judge_position rfl rfl hj
    exact (endsAfter_preamble hphase).2 ⟨hoffs, by omega⟩

/-- A burst of all the bytes to come leaves none to come. -/
theorem endsAfter_execBurst {bs : List Byte} {t : State} (hs : s.EndsAfter bs.length)
    (h : execBurst bs s = .next t) : t.EndsAfter 0 := by
  induction bs generalizing s with
  | nil =>
    cases h
    exact hs
  | cons b bs ih =>
    obtain ⟨u, hu, ht⟩ := execBurst_cons_next.1 h
    exact ih (endsAfter_rxByte hs hu) ht

/-- Under the invariant a burst of all the bytes to come completes and ends the attempt. -/
theorem execBurst_ends {bs : List Byte} (hi : s.Inv) (hs : s.EndsAfter bs.length) :
    ∃ t, exec (.burst bs) s = .next t ∧ t.phase = .preamble ∧ t.offs = 0 := by
  obtain ⟨t, ht, hti⟩ := burstAlwaysCompletes s bs hi
  exact ⟨t, ht, ended_of_endsAfter_zero hti (endsAfter_execBurst hs ht)⟩

end EndsAfter

/-- Settles O40: both counts are the bytes that the attempt still has to come. -/
theorem attemptEndsAfterDeclaredBytes : Obligations.AttemptEndsAfterDeclaredBytes := by
  intro s bs hi
  refine ⟨fun hp hlen => execBurst_ends hi ((endsAfter_payload hp).2 ?_),
    fun hp hlen => execBurst_ends hi ((endsAfter_footer hp).2 ?_)⟩
  · have hlt := offs_lt_of_payload hi hp
    omega
  · have hlt := offs_lt_of_footer hi hp
    omega

end Sys2Proof.Machine
end
